-- ==== Sys2Proof/Word.lean ====
section
/-! DEFINITION. The word and the byte of the absorber block (00_scope.md section 5.1, 5.2; R6: `W` is 64 bits). -/

namespace Sys2Proof

/-- `u64`: every accumulator, constant, seed, length counter and digest (R6). -/
abbrev Word := BitVec 64

/-- One byte of a byte sequence (00_scope.md section 5.2). -/
abbrev Byte := BitVec 8

end Sys2Proof
end

