-- ==== Sys2Proof/Config.lean ====
section
/-! DEFINITION. The parameters of the block that the spec asks a model to take as configuration: the constant
table (R20), the start value of lanes 1 and 2 (R74) and the largest payload (R6). The values the running machine
uses are in `Machine/Constants.lean`. -/

namespace Sys2Proof

/-- What an implementation of the block fixes. No command writes any of it (R20). -/
structure Config where
  /-- `P[0]`, used by the seed mixing and the final mixing (R73, R94). -/
  p0 : Word
  /-- `P[1]`, the constant of lane 0, of the post-fold steps and of both mixings (R21). -/
  p1 : Word
  /-- `P[2]`, the constant of lane 1 (R67). -/
  p2 : Word
  /-- `P[3]`, the constant of lane 2 (R67). -/
  p3 : Word
  /-- The initial value of `acc[1]` and `acc[2]` as a function of the mixed seed `m` (R74). -/
  laneInit : Word → Word
  /-- `MAX_PAYLOAD`, the largest payload of one UPDATE, FINAL or HASH command, in bytes (R6, R51). -/
  maxPayload : Nat

/-- `DEFAULT_SEED`, the seed of a NEW or HASH written without one (R6, R46). -/
def Config.defaultSeed : Word := 0

/-- `TAIL_CAP`, the largest length of `tail` between commands (R6, R18). -/
def Config.tailCap : Nat := 16

/-- `FBUF_CAP`, the largest length of `fbuf` between commands (R6, R19). -/
def Config.fbufCap : Nat := 63

/-- `DIGEST_HEX`, the length of the textual rendering of a digest (R6, R103). -/
def Config.digestHex : Nat := 16

end Sys2Proof
end

