-- ==== Sys2Proof/Machine/Constants.lean ====
section
/-! DEFINITION. The values of the parameters of `Config` that the machine runs with. -/

namespace Sys2Proof.Machine

/-- The initial value of lanes 1 and 2: the mixed seed itself, the default of R74. PRESUMED by the spec from general
knowledge (93_implementation_defined.md G2; log entry 6), unsafe. -/
def initialLane (m : Word) : Word := m

/-- The constant table of R20 (PRESUMED by the spec from general knowledge, 93_implementation_defined.md G1; log entry
5, unsafe), the lanes' start of R74 and the default of `MAX_PAYLOAD` (R6, 92_eei_decisions.md D20; log entry 4). -/
def specConfig : Config where
  p0 := 0xa0761d6478bd642f
  p1 := 0xe7037ed1a0b428db
  p2 := 0x8ebc6af09c88c6e3
  p3 := 0x589965cc75374cc3
  laneInit := initialLane
  maxPayload := 2 ^ 64 - 1

end Sys2Proof.Machine
end

