-- ==== Sys2Proof/Machine/Mixer.lean ====
section
/-! DEFINITION. The Mixer: pure functions over pairs of words (40_mixer.md). -/

namespace Sys2Proof.Machine

/-- `MUM(a, b)`: the low and the high half of the exact 128-bit product (R61, R62). -/
def mum (a b : Word) : Word × Word :=
  let r := a.toNat * b.toNat
  (BitVec.ofNat 64 (r % 2 ^ 64), BitVec.ofNat 64 (r / 2 ^ 64))

/-- `MIX(a, b)`: the exclusive or of the two halves (R64). -/
def mix (a b : Word) : Word :=
  (mum a b).1 ^^^ (mum a b).2

end Sys2Proof.Machine
end

