-- ==== Sys2Proof/Machine/State.lean ====
section
/-! DEFINITION. The state of the machine: the block's seven items (R9), and beside them the two channels and the reset
request through which the host reaches it. Responses, faults and refusals are here too. -/

namespace Sys2Proof.Machine

/-- The whole architectural state of one absorber block: the seven items of R9 and nothing else. -/
structure Block where
  /-- `acc[0]`, the source's `seed`: lane 0, and after the fold the single running accumulator (R10). -/
  acc0 : Word
  /-- `acc[1]`, the source's `one`: lane 1 (R10). -/
  acc1 : Word
  /-- `acc[2]`, the source's `two`: lane 2 (R10). -/
  acc2 : Word
  /-- `T`, the number of message bytes absorbed so far, modulo `2^64` (R13, R16). -/
  totalLength : Word
  /-- `fin`, true when no stream is open (R15). -/
  fin : Bool
  /-- `tail`, the last 16 bytes forwarded and not yet absorbed, or empty (R18). -/
  tail : List Byte
  /-- `fbuf`, the bytes received and not yet forwarded, fewer than 64 (R19). -/
  fbuf : List Byte
deriving DecidableEq, Repr

/-- The machine: one block, and the model's own fields for what reaches it from outside (log entries 1 and 9). -/
structure State where
  /-- The block (R9). -/
  block : Block
  /-- The command channel: bytes the host has sent and the block has not consumed, next one first (R47). -/
  commands : List Byte
  /-- The response channel: bytes the block has answered, oldest first (R52). The block never reads it. -/
  responses : List Byte
  /-- The environment asks for a hardware reset, taken before the next command (R126; log entry 9). -/
  resetRequest : Bool
deriving DecidableEq, Repr

/-- The block's one error kind (R111, R112). -/
inductive ErrorKind where
  /-- UPDATE or FINAL was issued in phase CLOSED (R111). -/
  | alreadyFinalized
deriving DecidableEq, Repr

/-- `Resp = OK | DIGEST(d) | ERR(AlreadyFinalized)` (R52). -/
inductive Response where
  | ok
  | digest (d : Word)
  | err (kind : ErrorKind)
deriving DecidableEq, Repr

/-- The faults of the machine: there is none. `AlreadyFinalized` is an ordinary outcome with a response and a next state
(R125), and no other runtime error exists (R112). A type without constructors is safe: it can stop no run (log entry
14). -/
inductive Fault where
deriving DecidableEq, Repr

/-- Why a step has no meaning (R125 (b)). -/
inductive Refusal where
  /-- Raised by `exec`'s arm of a command that has no meaning yet; no arm raises it. Safe: the run stops. -/
  | notModelled (mnemonic : String)
  /-- Raised by `step` on an opcode byte that spells no command (R51). Safe: the run stops. -/
  | unknownOpcode (op : Byte)
  /-- Raised by `step` on a command stream that ends inside a command (R51). Safe: the run stops. -/
  | truncatedCommand
  /-- Raised by `step` on a `len` field greater than `MAX_PAYLOAD` (R51). Safe: the run stops. -/
  | payloadTooLong (len : Nat)
  /-- Raised by UPDATE, FINAL and HASH where SS.UPDATE or SS.FINAL would be used outside its contract (R80, R82, R125);
  R101 says that no command does. Safe: the run stops. -/
  | outsideContract
deriving DecidableEq, Repr

/-- The block after hardware reset (R29, R126): phase CLOSED, both pending buffers empty. The accumulators and `T` hold
no value there; the model gives them zero (log entry 7, DESIGN CHOICE, unsafe). -/
def Block.reset : Block where
  acc0 := 0
  acc1 := 0
  acc2 := 0
  totalLength := 0
  fin := true
  tail := []
  fbuf := []

/-- The machine right after hardware reset, nothing sent and nothing answered (R29). -/
def State.reset : State where
  block := Block.reset
  commands := []
  responses := []
  resetRequest := false

end Sys2Proof.Machine
end

