-- ==== Sys2Proof/Machine/Flags.lean ====
section
/-! DEFINITION. The block's one flag, `fin`, and the two phases it stands for (R15). There are no condition codes. -/

namespace Sys2Proof.Machine

/-- The two phases of the block (R15); they are not privilege modes (R119). -/
inductive Phase where
  | streamOpen
  | closed
deriving DecidableEq, Repr

/-- CLOSED is `fin = 1`, OPEN is `fin = 0` (R15). -/
def Block.phase (b : Block) : Phase :=
  if b.fin then .closed else .streamOpen

/-- `fin <- 0`, by SS.INIT (R73). -/
def Block.clearFin (b : Block) : Block := { b with fin := false }

/-- `fin <- 1`, by SS.FINAL (R95). -/
def Block.setFin (b : Block) : Block := { b with fin := true }

end Sys2Proof.Machine
end

