-- ==== Sys2Proof/Machine/Operands.lean ====
section
/-! DEFINITION. Byte sequences and the one read primitive of the block (R31 to R38): every operand of every operation
is read through `memRead`. -/

namespace Sys2Proof.Machine

/-- The little-endian value of a byte sequence, the byte at offset `k` weighing `256^k` (R33). -/
def leValue : List Byte → Nat
  | [] => 0
  | b :: bs => b.toNat + 256 * leValue bs

/-- The `n` bytes of `v`, least significant first (R47, R52). -/
def leBytes : Nat → Nat → List Byte
  | 0, _ => []
  | n + 1, v => BitVec.ofNat 8 v :: leBytes n (v / 256)

/-- `s[i:j]`, the bytes `i` to `j - 1` of `s` (00_scope.md section 5.2). -/
def slice (s : List Byte) (i j : Nat) : List Byte :=
  (s.drop i).take (j - i)

/-- `MemRead(s, off, n)`: `n` bytes of `s` from offset `off`, little-endian, zero-extended to 64 bits (R33), with no
alignment (R35). It is total: a byte past the end of `s` counts as zero, which R36 allows and no reachable read
meets (log entry 11, DESIGN CHOICE). -/
def memRead (s : List Byte) (off n : Nat) : Word :=
  BitVec.ofNat 64 (leValue (slice s off (off + n)))

/-- `ramp(n)`: the `n` bytes whose byte `i` is `i mod 256` (R54). -/
def ramp (n : Nat) : List Byte :=
  (List.range n).map (BitVec.ofNat 8)

end Sys2Proof.Machine
end

