-- ==== Sys2Proof/Machine/Ops.lean ====
section
/-! DEFINITION. The named operations over the state: the accumulators and lanes, the counter, the pending buffers, the
response channel, and raising `AlreadyFinalized`. -/

namespace Sys2Proof.Machine

open Host (Outcome)

/-- The lane index `op` in `{0, 1, 2}` (R10, R17). It is never stored (R17, R22). -/
inductive Lane where
  | lane0
  | lane1
  | lane2
deriving DecidableEq, Repr

/-- `(op + 1) mod 3` (R68). -/
def Lane.next : Lane → Lane
  | .lane0 => .lane1
  | .lane1 => .lane2
  | .lane2 => .lane0

/-- The lane of an index, taken modulo 3. -/
def laneOf (index : Nat) : Lane :=
  match index % 3 with
  | 0 => .lane0
  | 1 => .lane1
  | _ => .lane2

/-- The lane index recomputed at every ABSORB: `op = (T mod 48) div 16` (R17, R68). -/
def laneIndex (t : Word) : Lane :=
  laneOf (t.toNat % 48 / 16)

/-- `acc[i]` (R10). -/
def Block.acc (b : Block) : Lane → Word
  | .lane0 => b.acc0
  | .lane1 => b.acc1
  | .lane2 => b.acc2

/-- `acc[i] <- v` (R10). -/
def Block.setAcc (b : Block) (i : Lane) (v : Word) : Block :=
  match i with
  | .lane0 => { b with acc0 := v }
  | .lane1 => { b with acc1 := v }
  | .lane2 => { b with acc2 := v }

/-- `T <- v` (R13). -/
def Block.setTotal (b : Block) (v : Word) : Block := { b with totalLength := v }

/-- `T <- (T + n) mod 2^64` (R16). -/
def Block.addTotal (b : Block) (n : Nat) : Block := b.setTotal (b.totalLength + BitVec.ofNat 64 n)

/-- `tail <- s` (R18). -/
def Block.setTail (b : Block) (s : List Byte) : Block := { b with tail := s }

/-- `fbuf <- s` (R19). -/
def Block.setFbuf (b : Block) (s : List Byte) : Block := { b with fbuf := s }

/-- Replace the block, leaving the channels as they are. -/
def State.setBlock (s : State) (b : Block) : State := { s with block := b }

/-- Replace the bytes still to be consumed on the command channel. -/
def State.setCommands (s : State) (bytes : List Byte) : State := { s with commands := bytes }

/-- The cause code of an error, bits `[6:0]` of its status byte (R52, R111). -/
def causeCode : ErrorKind → Byte
  | .alreadyFinalized => 1

/-- The bytes of a response: status byte, then the digest little-endian where there is one (R52). -/
def encodeResponse : Response → List Byte
  | .ok => [0x00]
  | .digest d => 0x01 :: leBytes 8 d.toNat
  | .err kind => [0x80 ||| causeCode kind]

/-- `respond r`: the response's bytes go out on the response channel (R52). -/
def State.respond (s : State) (r : Response) : State :=
  { s with responses := s.responses ++ encodeResponse r }

/-- `raise kind`: the command ends at once with the error response and no other effect. Nothing is saved, masked or
jumped to, and there is no return from it (R111, R116, R117). -/
def raise (kind : ErrorKind) (s : State) : Outcome State Fault Refusal :=
  .next (s.respond (.err kind))

/-- What an internal operation with a contract answers. -/
inductive Attempt (α : Type) where
  /-- It ran. -/
  | done (a : α)
  /-- It raised an error (R76, R81). -/
  | raised (kind : ErrorKind)
  /-- It was used outside its contract, where the spec gives it no meaning (R80, R82). -/
  | outsideContract
deriving DecidableEq, Repr

/-- End a command on the answer of an internal operation: an error is raised from the state `s` the command began in
(00_scope.md section 5.3), use outside the contract is refused (R125), and otherwise the command goes on. -/
def finish {α : Type} (s : State) (r : Attempt α) (go : α → State) : Outcome State Fault Refusal :=
  match r with
  | .done a => .next (go a)
  | .raised kind => raise kind s
  | .outsideContract => .refused .outsideContract

/-- The hexadecimal digit of a value below 16, lower case (R103). -/
def hexDigit (v : Nat) : Char :=
  if v < 10 then Char.ofNat (48 + v) else Char.ofNat (87 + v)

/-- The rendering of a digest as 16 characters, applied by the host: character `i` is the digit of bits
`[63 - 4i : 60 - 4i]` (R53, R103). -/
def renderDigest (d : Word) : List Char :=
  (List.range Config.digestHex).map (fun i => hexDigit (d.toNat / 2 ^ (60 - 4 * i) % 16))

end Sys2Proof.Machine
end

