-- ==== Sys2Proof/Machine/Absorber.lean ====
section
/-! DEFINITION. The RoundAbsorber: LANE and ABSORB (41_round_absorber.md). -/

namespace Sys2Proof.Machine

/-- The constant of a lane, `P[op + 1]` (R21, R67). -/
def laneConst (cfg : Config) : Lane → Word
  | .lane0 => cfg.p1
  | .lane1 => cfg.p2
  | .lane2 => cfg.p3

/-- The value of one 16-byte step: `MIX(w0 ^ constant, w1 ^ accumulator)` (R67, R89). -/
def stepValue (constant acc w0 w1 : Word) : Word :=
  mix (w0 ^^^ constant) (w1 ^^^ acc)

/-- `LANE(op, w0, w1)` (R67). -/
def lane (cfg : Config) (op : Lane) (w0 w1 : Word) (b : Block) : Block :=
  b.setAcc op (stepValue (laneConst cfg op) (b.acc op) w0 w1)

/-- The loop of ABSORB: `steps` lane steps on `buf` from offset `o`, the first in lane `op` (R68). -/
def laneSteps (cfg : Config) (buf : List Byte) : (steps o : Nat) → Lane → Block → Block
  | 0, _, _, b => b
  | steps + 1, o, op, b =>
    laneSteps cfg buf steps (o + 16) op.next (lane cfg op (memRead buf o 8) (memRead buf (o + 8) 8) b)

/-- The number of values `o = 0, 16, 32, ...` with `o < len` (R68). -/
def stepCount (len : Nat) : Nat := (len + 15) / 16

/-- `ABSORB(buf)`: the lane steps from the lane index of `T`, then `T <- (T + |buf|) mod 2^64` (R68, R70). -/
def absorb (cfg : Config) (buf : List Byte) (b : Block) : Block :=
  (laneSteps cfg buf (stepCount buf.length) 0 (laneIndex b.totalLength) b).addTotal buf.length

end Sys2Proof.Machine
end

