-- ==== Sys2Proof/Machine/Stream.lean ====
section
/-! DEFINITION. The StreamState's creation and update: SS.INIT and SS.UPDATE (42_stream_init_update.md). -/

namespace Sys2Proof.Machine

/-- The mixed seed `m = s ^ MIX(s ^ P[0], P[1])` (R73, R75). -/
def mixedSeed (cfg : Config) (seed : Word) : Word :=
  seed ^^^ mix (seed ^^^ cfg.p0) cfg.p1

/-- `SS.INIT(s)` (R73). Lanes 1 and 2 start at the configured function of `m` (R74). -/
def ssInit (cfg : Config) (seed : Word) (b : Block) : Block :=
  let m := mixedSeed cfg seed
  (((((b.setAcc .lane0 m).setAcc .lane1 (cfg.laneInit m)).setAcc .lane2 (cfg.laneInit m)).setTotal 0).setTail []).clearFin

/-- How many bytes of `tail ‖ buf`, of length `len`, SS.UPDATE absorbs: all whole steps but one (R76, R78). The natural
subtraction is the clamp `max(0, ...)` (R80). -/
def updatePrefix (len : Nat) : Nat := 16 * (len / 16) - 16

/-- `SS.UPDATE(buf)` (R76). Its contract is `|buf| mod 64 = 0` (R77); the empty buffer has the meaning R80 gives it. -/
def ssUpdate (cfg : Config) (buf : List Byte) (b : Block) : Attempt Block :=
  if b.fin then .raised .alreadyFinalized
  else if buf.length % 64 ≠ 0 then .outsideContract
  else
    let c := b.tail ++ buf
    let n := updatePrefix c.length
    .done ((absorb cfg (c.take n) b).setTail (c.drop n))

end Sys2Proof.Machine
end

