-- ==== Sys2Proof/Machine/Final.lean ====
section
/-! DEFINITION. The StreamState's finalization: SS.FINAL, its seven steps one by one (43_stream_final.md). -/

namespace Sys2Proof.Machine

/-- Step 1: the bytes already absorbed into the incomplete round (R85). -/
def uneven (t : Nat) : Nat :=
  if 48 < t then t % 48 else 0

/-- Step 2: how many of the `c` unabsorbed bytes the peel absorbs when `t` bytes are absorbed already (R86). The
arithmetic is on natural numbers (R65; log entry 10), its subtraction the clamp `max(0, ...)`. -/
def peelLength (t c : Nat) : Nat :=
  if uneven t ≠ 0 ∨ 48 < c then 48 * ((t + c - 1) / 48) - t else 0

/-- Step 3, the test: the stream folds when at least one round has been absorbed (R87). -/
def folds (t : Word) : Bool := decide (48 ≤ t.toNat)

/-- Step 3, the fold: `acc[0] <- acc[0] ^ acc[1] ^ acc[2]` (R87). -/
def fold (b : Block) : Block :=
  b.setAcc .lane0 (b.acc0 ^^^ b.acc1 ^^^ b.acc2)

/-- The four ways to compute the pair `(a, b)` (R88). -/
inductive FinalPath where
  | long
  | medium
  | short
  | empty
deriving DecidableEq, Repr

/-- Step 4, the choice of path from the fold and the remainder length `r` (R88). -/
def finalPath (folded : Bool) (r : Nat) : FinalPath :=
  if folded ∨ 16 < r then .long
  else if 4 ≤ r then .medium
  else if 1 ≤ r then .short
  else .empty

/-- The 16-byte steps of the long path on `acc[0]`, always with `P[1]`: `steps` of them from offset `o` (R89). -/
def longSteps (cfg : Config) (c : List Byte) : (steps o : Nat) → Word → Word
  | 0, _, acc => acc
  | steps + 1, o, acc =>
    longSteps cfg c steps (o + 16) (stepValue cfg.p1 acc (memRead c o 8) (memRead c (o + 8) 8))

/-- The number of steps of the long path, those with `r - o > 16` (R89). -/
def longStepCount (r : Nat) : Nat := (r - 1) / 16

/-- The medium path's pair, overlapping 4-byte reads (R90). -/
def mediumPair (c : List Byte) : Word × Word :=
  let r := c.length
  let k := (r >>> 3) <<< 2
  ((memRead c 0 4 <<< 32) ||| memRead c k 4, (memRead c (r - 4) 4 <<< 32) ||| memRead c (r - 4 - k) 4)

/-- The short path's pair, three byte reads (R91). -/
def shortPair (c : List Byte) : Word × Word :=
  let r := c.length
  ((memRead c 0 1 <<< 16) ||| (memRead c (r >>> 1) 1 <<< 8) ||| memRead c (r - 1) 1, 0)

/-- Step 4, the pair `(a, b)`, from the remainder `c` and the last 16 bytes before the peel (R88 to R92). -/
def finalPair (path : FinalPath) (c last16 : List Byte) : Word × Word :=
  match path with
  | .long => (memRead last16 0 8, memRead last16 8 8)
  | .medium => mediumPair c
  | .short => shortPair c
  | .empty => (0, 0)

/-- Step 4, `acc[0]` after it: only the long path changes it (R89). -/
def finalAcc (cfg : Config) (path : FinalPath) (c : List Byte) (acc : Word) : Word :=
  match path with
  | .long => longSteps cfg c (longStepCount c.length) 0 acc
  | .medium => acc
  | .short => acc
  | .empty => acc

/-- Step 6, the final mixing of the pair, `acc[0]` and the message length `T` (R94). -/
def finalMix (cfg : Config) (pair : Word × Word) (acc t : Word) : Word :=
  let m := mum (pair.1 ^^^ cfg.p1) (pair.2 ^^^ acc)
  mix (m.1 ^^^ cfg.p0 ^^^ t) (m.2 ^^^ cfg.p1)

/-- Steps 3 to 7 on the remainder `c` after the peel: the block afterwards and the digest (R87 to R95). -/
def finishStream (cfg : Config) (c last16 : List Byte) (b : Block) : Block × Word :=
  let folded := folds b.totalLength
  let b := if folded then fold b else b
  let path := finalPath folded c.length
  let b := (b.setAcc .lane0 (finalAcc cfg path c b.acc0)).addTotal c.length
  (b.setFin, finalMix cfg (finalPair path c last16) b.acc0 b.totalLength)

/-- `SS.FINAL(buf)`: the block afterwards and the digest (R81). Its operand is shorter than one block (R82); `last16` is
read before the peel (R84). -/
def ssFinal (cfg : Config) (buf : List Byte) (b : Block) : Attempt (Block × Word) :=
  if b.fin then .raised .alreadyFinalized
  else if 64 ≤ buf.length then .outsideContract
  else
    let c := b.tail ++ buf
    let n := peelLength b.totalLength.toNat c.length
    .done (finishStream cfg (c.drop n) (c.drop (c.length - 16)) (absorb cfg (c.take n) (b.setTail [])))

end Sys2Proof.Machine
end

