-- ==== Sys2Proof/Syntax.lean ====
section
/-! DEFINITION. The four commands of the block (R8, R46) and the assembler forms that stand for them (R54, R55). -/

namespace Sys2Proof

/-- A decoded command: `Cmd = NEW(seed) | UPDATE(data) | FINAL(data) | HASH(seed, data)` (R46). -/
inductive Instr where
  /-- NEW: open a stream with `seed` (R97). -/
  | new (seed : Word)
  /-- UPDATE: append `data` to the message (R98). -/
  | update (data : List Byte)
  /-- FINAL: append `data`, close the stream and answer the digest (R99). -/
  | final (data : List Byte)
  /-- HASH: the one-shot digest of `data` under `seed` (R100). -/
  | hash (seed : Word) (data : List Byte)
deriving DecidableEq, Repr

/-- A payload as the assembler writes it (R54). -/
inductive AsmData where
  /-- A quoted text: its ASCII bytes without any terminator. -/
  | text (chars : String)
  /-- `hex:` followed by byte pairs. -/
  | hex (bytes : List Byte)
  /-- `ramp(n)`: the `n` bytes whose byte `i` is `i mod 256`. -/
  | ramp (n : Nat)
deriving DecidableEq, Repr

/-- One line of the assembler with its operands already read; an omitted operand is `none` (R54). A seed literal is
below `2^64`, so it is a word; turning its digits into that word is host software (R5, R49). -/
inductive Asm where
  | new (seed : Option Word)
  | update (data : AsmData)
  | final (data : Option AsmData)
  | hash (data : AsmData) (seed : Option Word)
deriving DecidableEq, Repr

end Sys2Proof
end

