-- ==== Sys2Proof/Machine/Commands.lean ====
section
/-! DEFINITION. The four host commands over every configuration (44_hasher_commands.md), and their meanings in the
machine, one definition each. -/

namespace Sys2Proof.Machine

open Host (Outcome)

/-- The whole 64-byte blocks at the front of `len` bytes, in bytes: `64 * (len div 64)` (R98, R99). -/
def wholeBlocks (len : Nat) : Nat := 64 * (len / 64)

/-- Forward the whole blocks of `bytes`, when there is one, to SS.UPDATE (R98, R99, R101). -/
def forwardBlocks (cfg : Config) (bytes : List Byte) (b : Block) : Attempt Block :=
  let n := wholeBlocks bytes.length
  if 0 < n then ssUpdate cfg (bytes.take n) b else .done b

/-- Open a stream: SS.INIT, then `fbuf <- ε` (R97, R100). -/
def openStream (cfg : Config) (seed : Word) (b : Block) : Block :=
  (ssInit cfg seed b).setFbuf []

/-- Close the stream with `bytes` in hand: `fbuf <- ε`, forward the whole blocks, finalize with the rest (R99). -/
def closeStream (cfg : Config) (bytes : List Byte) (b : Block) : Attempt (Block × Word) :=
  match forwardBlocks cfg bytes (b.setFbuf []) with
  | .done b' => ssFinal cfg (bytes.drop (wholeBlocks bytes.length)) b'
  | .raised kind => .raised kind
  | .outsideContract => .outsideContract

/-- `NEW seed` (R97). -/
def newCommand (cfg : Config) (seed : Word) (s : State) : Outcome State Fault Refusal :=
  .next ((s.setBlock (openStream cfg seed s.block)).respond .ok)

/-- `UPDATE data` (R98): the `fin` test comes before everything else (R111, R115). -/
def updateCommand (cfg : Config) (data : List Byte) (s : State) : Outcome State Fault Refusal :=
  if s.block.fin then raise .alreadyFinalized s
  else
    let bytes := s.block.fbuf ++ data
    finish s (forwardBlocks cfg bytes s.block)
      (fun b => (s.setBlock (b.setFbuf (bytes.drop (wholeBlocks bytes.length)))).respond .ok)

/-- `FINAL data` (R99): the `fin` test comes before everything else (R111, R115). -/
def finalCommand (cfg : Config) (data : List Byte) (s : State) : Outcome State Fault Refusal :=
  if s.block.fin then raise .alreadyFinalized s
  else
    finish s (closeStream cfg (s.block.fbuf ++ data) s.block)
      (fun r => (s.setBlock r.1).respond (.digest r.2))

/-- `HASH data, seed` (R100): NEW without its response, then exactly FINAL. -/
def hashCommand (cfg : Config) (seed : Word) (data : List Byte) (s : State) : Outcome State Fault Refusal :=
  finalCommand cfg data (s.setBlock (openStream cfg seed s.block))

/-- One command under a configuration (R7). -/
def runCommand (cfg : Config) (i : Instr) (s : State) : Outcome State Fault Refusal :=
  match i with
  | .new seed => newCommand cfg seed s
  | .update data => updateCommand cfg data s
  | .final data => finalCommand cfg data s
  | .hash seed data => hashCommand cfg seed data s

/-- The meaning of NEW (R97). -/
def execNew (seed : Word) (s : State) : Outcome State Fault Refusal := newCommand specConfig seed s

/-- The meaning of UPDATE (R98). -/
def execUpdate (data : List Byte) (s : State) : Outcome State Fault Refusal := updateCommand specConfig data s

/-- The meaning of FINAL (R99). -/
def execFinal (data : List Byte) (s : State) : Outcome State Fault Refusal := finalCommand specConfig data s

/-- The meaning of HASH (R100). -/
def execHash (seed : Word) (data : List Byte) (s : State) : Outcome State Fault Refusal :=
  hashCommand specConfig seed data s

end Sys2Proof.Machine
end

