-- ==== Sys2Proof/Machine/Dispatch.lean ====
section
/-! DEFINITION. One arm per command of `spec/opcode_table.json`. -/

namespace Sys2Proof.Machine

def exec (i : Instr) (s : State) : Host.Outcome State Fault Refusal :=
  match i with
  | .new seed => Sys2Proof.Machine.execNew seed s
  | .update data => Sys2Proof.Machine.execUpdate data s
  | .final data => Sys2Proof.Machine.execFinal data s
  | .hash seed data => Sys2Proof.Machine.execHash seed data s

end Sys2Proof.Machine
end

