-- ==== Sys2Proof/WellFormed.lean ====
section
/-! DEFINITION. Which commands have an encoding: the payload is no longer than `MAX_PAYLOAD` and its length fits the
64-bit `len` field (R6, R32, R47, R51). -/

namespace Sys2Proof

/-- The payload of a command; NEW carries none (R46). -/
def Instr.payload : Instr → List Byte
  | .new _ => []
  | .update data => data
  | .final data => data
  | .hash _ data => data

/-- A payload that a command can carry: at most `MAX_PAYLOAD` bytes (R32), with a length that the 64-bit `len` field
holds (R47). -/
def payloadFits (maxPayload : Nat) (data : List Byte) : Bool :=
  decide (data.length ≤ maxPayload) && decide (data.length < 2 ^ 64)

/-- A command the block can be sent. Every seed is legal (R49, R73). -/
def Instr.wellFormed (maxPayload : Nat) (i : Instr) : Bool :=
  payloadFits maxPayload i.payload

end Sys2Proof
end

