-- ==== Sys2Proof/Decode.lean ====
section
/-! DEFINITION. The command channel's encoding (R46 to R51): the decoder, total on any bytes and rejecting by name, then
the encoder and the assembler, and the words of `spec/opcode_table.json` as bytes. -/

namespace Sys2Proof

open Sys2Proof.Machine

/-- What the decoder finds at the front of the command channel. -/
inductive Decoded where
  /-- A whole command and the bytes after it. -/
  | command (i : Instr) (rest : List Byte)
  /-- The channel holds no byte, so no command has begun (log entry 2). -/
  | endOfStream
  /-- The opcode byte spells no command (R51). -/
  | unknownOpcode (op : Byte)
  /-- The channel ends inside a command (R51). -/
  | truncated
  /-- The `len` field is greater than `MAX_PAYLOAD` (R51). -/
  | oversize (len : Nat)
deriving DecidableEq, Repr

/-- Opcode bytes, bits `[7:3]` zero and bits `[2:0]` the command (R48). -/
def opcodeNew : Byte := 0x01
def opcodeUpdate : Byte := 0x02
def opcodeFinal : Byte := 0x03
def opcodeHash : Byte := 0x04

/-- The payload of a command whose header is the first `header` bytes of `cmd` and whose `len` field is `len`
(R47, R49): the `len` bytes after the header, or the refusal R51 names. -/
def decodePayload (maxPayload : Nat) (cmd : List Byte) (header len : Nat) (build : List Byte → Instr) : Decoded :=
  if maxPayload < len then .oversize len
  else if cmd.length < header + len then .truncated
  else .command (build (slice cmd header (header + len))) (cmd.drop (header + len))

/-- Format N: `seed = MemRead(cmd, 1, 8)` (R47, R49). -/
def decodeFormatN (cmd : List Byte) : Decoded :=
  if cmd.length < 9 then .truncated
  else .command (.new (memRead cmd 1 8)) (cmd.drop 9)

/-- Format B: `n = MemRead(cmd, 1, 8)` and `data = cmd[9 : 9 + n]` (R47, R49). -/
def decodeFormatB (maxPayload : Nat) (cmd : List Byte) (build : List Byte → Instr) : Decoded :=
  if cmd.length < 9 then .truncated
  else decodePayload maxPayload cmd 9 (memRead cmd 1 8).toNat build

/-- Format H: `seed = MemRead(cmd, 1, 8)`, `n = MemRead(cmd, 9, 8)` and `data = cmd[17 : 17 + n]` (R47, R49). -/
def decodeFormatH (maxPayload : Nat) (cmd : List Byte) : Decoded :=
  if cmd.length < 17 then .truncated
  else decodePayload maxPayload cmd 17 (memRead cmd 9 8).toNat (.hash (memRead cmd 1 8))

/-- The command at the front of a byte stream, with `MAX_PAYLOAD` as an argument (R6, R48 to R51). -/
def decodeCommand (maxPayload : Nat) (cmd : List Byte) : Decoded :=
  match cmd with
  | [] => .endOfStream
  | op :: _ =>
    if op = opcodeNew then decodeFormatN cmd
    else if op = opcodeUpdate then decodeFormatB maxPayload cmd .update
    else if op = opcodeFinal then decodeFormatB maxPayload cmd .final
    else if op = opcodeHash then decodeFormatH maxPayload cmd
    else .unknownOpcode op

/-- The number of bytes of the command at the front of a byte stream, from its opcode byte and its `len` field (R47,
R50); `none` where the opcode byte spells no command. -/
def commandLength (cmd : List Byte) : Option Nat :=
  match cmd with
  | [] => none
  | op :: _ =>
    if op = opcodeNew then some 9
    else if op = opcodeUpdate ∨ op = opcodeFinal then some (9 + (memRead cmd 1 8).toNat)
    else if op = opcodeHash then some (17 + (memRead cmd 9 8).toNat)
    else none

/-- A 64-bit field: 8 bytes, little-endian (R47). -/
def encodeField (v : Word) : List Byte :=
  leBytes 8 v.toNat

/-- The `len` field of a payload (R47). -/
def encodeLength (data : List Byte) : List Byte :=
  leBytes 8 data.length

/-- The bytes of a command: opcode, fields, payload (R47, R48). -/
def encode : Instr → List Byte
  | .new seed => opcodeNew :: encodeField seed
  | .update data => opcodeUpdate :: (encodeLength data ++ data)
  | .final data => opcodeFinal :: (encodeLength data ++ data)
  | .hash seed data => opcodeHash :: (encodeField seed ++ (encodeLength data ++ data))

/-- The bytes a payload operand of the assembler stands for (R54); a text that is not ASCII stands for none. -/
def assembleData : AsmData → Option (List Byte)
  | .text chars =>
    if chars.toList.all (fun c => decide (c.toNat < 128)) then some (chars.toList.map (fun c => BitVec.ofNat 8 c.toNat))
    else none
  | .hex bytes => some bytes
  | .ramp n => some (ramp n)

/-- The command a line of the assembler stands for; an omitted seed is 0 and an omitted FINAL payload is empty (R46,
R54, R55). -/
def assemble : Asm → Option Instr
  | .new seed => some (.new (seed.getD Config.defaultSeed))
  | .update data => (assembleData data).map .update
  | .final none => some (.final [])
  | .final (some data) => (assembleData data).map .final
  | .hash data seed => (assembleData data).map (.hash (seed.getD Config.defaultSeed))

/-- The bytes of the table's word `w`, `nbits` bits of it given, every later bit of its command zero: byte 0 holds bits
7 to 0. Where the opcode byte spells a command, exactly that command's bytes. -/
def tableCommand (nbits w : Nat) : List Byte :=
  let given := leBytes ((nbits + 7) / 8) w
  match commandLength (given ++ List.replicate 17 0) with
  | some n => (given ++ List.replicate (n - given.length) 0).take n
  | none => given

/-- The command the decoder reads from a word of `spec/opcode_table.json`. -/
def decodeTableWord (nbits w : Nat) : Option Instr :=
  match decodeCommand specConfig.maxPayload (tableCommand nbits w) with
  | .command i _ => some i
  | .endOfStream => none
  | .unknownOpcode _ => none
  | .truncated => none
  | .oversize _ => none

end Sys2Proof
end

