-- ==== Sys2Proof/Machine/Fetch.lean ====
section
/-! DEFINITION. What a step does before a command runs: taking a reset, reading the next command from the command
channel, and placing a command there. -/

namespace Sys2Proof.Machine

/-- Hardware reset: the block is abandoned for the reset block, and the request is answered (R126). The channels are the
host's and stay as they are (log entry 9, DESIGN CHOICE). -/
def takeReset (s : State) : State :=
  { s with block := Block.reset, resetRequest := false }

/-- The command at the front of the command channel (R47, R50). -/
def fetch (s : State) : Decoded :=
  decodeCommand specConfig.maxPayload s.commands

/-- A word of the opcode table as the next command on the channel, before whatever is there, with no reset in its way
(log entry 15). -/
def placeTableWord (s : State) (nbits w : Nat) : State :=
  { s with commands := tableCommand nbits w ++ s.commands, resetRequest := false }

end Sys2Proof.Machine
end

