-- ==== Sys2Proof/Machine/Step.lean ====
section
/-! DEFINITION. The one step relation: execute the next command (R7), unless a reset is asked for (R126) or no command
has been sent. -/

namespace Sys2Proof.Machine

/-- One step. A requested reset is taken first; an empty command channel leaves the block holding its state (R124; log
entry 2); a command is consumed and executed (R40, R47); bytes that spell no command are refused by name (R51). -/
def step (s : State) : Host.Outcome State Fault Refusal :=
  if s.resetRequest then .next (takeReset s)
  else
    match fetch s with
    | .command i rest => exec i (s.setCommands rest)
    | .endOfStream => .next s
    | .unknownOpcode op => .refused (.unknownOpcode op)
    | .truncated => .refused .truncatedCommand
    | .oversize len => .refused (.payloadTooLong len)

/-- A word of the opcode table where `step` fetches its next command. -/
def State.withFetchWord (s : State) (nbits w : Nat) : State :=
  placeTableWord s nbits w

end Sys2Proof.Machine
end

