-- ==== Sys2Proof/Safety.lean ====
section
/-! DEFINITION. The terms in which claims are stated: legal blocks, the block that holds a message, the digest as a
function of seed and message (R102), the phase diagram (R27), sequences of commands, and the one-shot form the block is
compared with (R107). -/

namespace Sys2Proof.Machine

open Host (Outcome)

/-- The block between commands: the buffers' bounds (R9, R18, R19), the counter beside the tail (R14; modulo 64, so that
it holds after a wrap too, R16), the lanes before the first block (R79), and empty buffers when CLOSED (R29, R99). -/
structure Block.Legal (cfg : Config) (b : Block) : Prop where
  fbuf_bound : b.fbuf.length ≤ Config.fbufCap
  tail_bound : b.tail = [] ∨ b.tail.length = Config.tailCap
  closed_empty : b.fin = true → b.tail = [] ∧ b.fbuf = []
  fresh : b.fin = false → b.tail = [] →
    b.totalLength = 0 ∧ ∃ seed, b.acc0 = mixedSeed cfg seed ∧ b.acc1 = cfg.laneInit (mixedSeed cfg seed) ∧
      b.acc2 = cfg.laneInit (mixedSeed cfg seed)
  counted : b.fin = false → b.tail ≠ [] → b.totalLength.toNat % 64 = 48

/-- How many bytes of an `l`-byte message an open stream has absorbed: 0, or `64 * K - 16` after `K` blocks (R14). -/
def absorbedByUpdates (l : Nat) : Nat := 64 * (l / 64) - 16

/-- The block that holds the message `msg` of an open stream (R79, R101): the first `64 * K - 16` bytes are absorbed, the
next 16 are in `tail`, the rest in `fbuf`. -/
def streamBlock (cfg : Config) (seed : Word) (msg : List Byte) : Block :=
  let t := absorbedByUpdates msg.length
  let n := wholeBlocks msg.length
  ((absorb cfg (msg.take t) (openStream cfg seed Block.reset)).setTail (slice msg t n)).setFbuf (msg.drop n)

/-- The three accumulators `x0, x1, x2` of R102. -/
abbrev Lanes := Word × Word × Word

/-- Step `j` of R102: bytes `16j` to `16j + 15` of the message into lane `j mod 3`. -/
def digestStep (cfg : Config) (msg : List Byte) (x : Lanes) (j : Nat) : Lanes :=
  let w0 := memRead msg (16 * j) 8
  let w1 := memRead msg (16 * j + 8) 8
  match j % 3 with
  | 0 => (mix (w0 ^^^ cfg.p1) (w1 ^^^ x.1), x.2.1, x.2.2)
  | 1 => (x.1, mix (w0 ^^^ cfg.p2) (w1 ^^^ x.2.1), x.2.2)
  | _ => (x.1, x.2.1, mix (w0 ^^^ cfg.p3) (w1 ^^^ x.2.2))

/-- A step of R102 after the fold: 16 bytes from offset `o` into `x0`. -/
def digestTailStep (cfg : Config) (msg : List Byte) (o : Nat) (x0 : Word) (j : Nat) : Word :=
  mix (memRead msg (o + 16 * j) 8 ^^^ cfg.p1) (memRead msg (o + 16 * j + 8) 8 ^^^ x0)

/-- The pair `(a, b)` of a message of at most 16 bytes (R90, R91, R92). -/
def smallPair (msg : List Byte) : Word × Word :=
  let r := msg.length
  if 4 ≤ r then
    let k := (r >>> 3) <<< 2
    ((memRead msg 0 4 <<< 32) ||| memRead msg k 4, (memRead msg (r - 4) 4 <<< 32) ||| memRead msg (r - 4 - k) 4)
  else if 1 ≤ r then
    ((memRead msg 0 1 <<< 16) ||| (memRead msg (r >>> 1) 1 <<< 8) ||| memRead msg (r - 1) 1, 0)
  else (0, 0)

/-- The last 16 bytes of a message as two words (R84). -/
def lastPair (msg : List Byte) : Word × Word :=
  (memRead msg (msg.length - 16) 8, memRead msg (msg.length - 8) 8)

/-- `A`, the bytes of an `l`-byte message absorbed in round-robin (R96, R102): `max(T0, 48 * R)`. -/
def roundRobinBytes (l : Nat) : Nat := max (absorbedByUpdates l) (48 * ((l - 1) / 48))

/-- The digest of a message of which `a` bytes are absorbed in round-robin before the fold (R102). -/
def digestAfter (cfg : Config) (seed : Word) (msg : List Byte) (a : Nat) : Word :=
  let m := mixedSeed cfg seed
  let x := (List.range (a / 16)).foldl (digestStep cfg msg) (m, cfg.laneInit m, cfg.laneInit m)
  let folded := 48 ≤ a
  let x0 := if folded then x.1 ^^^ x.2.1 ^^^ x.2.2 else x.1
  let r := msg.length - a
  let long := folded ∨ 16 < r
  let y0 := if long then (List.range ((r - 1) / 16)).foldl (digestTailStep cfg msg a) x0 else x0
  let pair := if long then lastPair msg else smallPair msg
  let h := mum (pair.1 ^^^ cfg.p1) (pair.2 ^^^ y0)
  mix (h.1 ^^^ cfg.p0 ^^^ BitVec.ofNat 64 msg.length) (h.2 ^^^ cfg.p1)

/-- `D(s, M)`, the digest as a function of seed and message, without reference to commands (R102). -/
def digest (cfg : Config) (seed : Word) (msg : List Byte) : Word :=
  digestAfter cfg seed msg (roundRobinBytes msg.length)

/-- One 48-byte round of the one-shot form, from offset `48 * k` (95_test_vectors.md section 6). -/
def oneShotRound (cfg : Config) (msg : List Byte) (x : Lanes) (k : Nat) : Lanes :=
  let o := 48 * k
  (mix (memRead msg o 8 ^^^ cfg.p1) (memRead msg (o + 8) 8 ^^^ x.1),
   mix (memRead msg (o + 16) 8 ^^^ cfg.p2) (memRead msg (o + 24) 8 ^^^ x.2.1),
   mix (memRead msg (o + 32) 8 ^^^ cfg.p3) (memRead msg (o + 40) 8 ^^^ x.2.2))

/-- `ONESHOT(s, M)` (95_test_vectors.md section 6, from general knowledge; no part of the block): whole rounds while more
than 48 bytes remain, the fold, then lane-0 steps while more than 16 bytes remain. -/
def oneShot (cfg : Config) (seed : Word) (msg : List Byte) : Word :=
  let m := mixedSeed cfg seed
  let l := msg.length
  let rounds := (l - 1) / 48
  let x := (List.range rounds).foldl (oneShotRound cfg msg) (m, m, m)
  let x0 := if 48 < l then x.1 ^^^ x.2.1 ^^^ x.2.2 else m
  let o := if 48 < l then 48 * rounds else 0
  let y0 := if 16 < l then (List.range ((l - o - 1) / 16)).foldl (digestTailStep cfg msg o) x0 else m
  let pair := if 16 < l then lastPair msg else smallPair msg
  let h := mum (pair.1 ^^^ cfg.p1) (pair.2 ^^^ y0)
  mix (h.1 ^^^ cfg.p0 ^^^ BitVec.ofNat 64 l) (h.2 ^^^ cfg.p1)

/-- The phase after a command, row by row (R27). -/
def phaseAfter : Phase → Instr → Phase
  | .closed, .new _ => .streamOpen
  | .closed, .update _ => .closed
  | .closed, .final _ => .closed
  | .closed, .hash _ _ => .closed
  | .streamOpen, .new _ => .streamOpen
  | .streamOpen, .update _ => .streamOpen
  | .streamOpen, .final _ => .closed
  | .streamOpen, .hash _ _ => .closed

/-- The response of a command in a phase, row by row (R27). -/
def Answers : Phase → Instr → Response → Prop
  | .closed, .new _, r => r = .ok
  | .closed, .update _, r => r = .err .alreadyFinalized
  | .closed, .final _, r => r = .err .alreadyFinalized
  | .closed, .hash _ _, r => ∃ d, r = .digest d
  | .streamOpen, .new _, r => r = .ok
  | .streamOpen, .update _, r => r = .ok
  | .streamOpen, .final _, r => ∃ d, r = .digest d
  | .streamOpen, .hash _ _, r => ∃ d, r = .digest d

/-- Commands taken one after another, each on the state the one before it left (R40). -/
def runCommands (cfg : Config) : List Instr → State → Outcome State Fault Refusal
  | [], s => .next s
  | i :: rest, s =>
    match runCommand cfg i s with
    | .next t => runCommands cfg rest t
    | .fault f => .fault f
    | .refused r => .refused r

/-- The commands of one stream: NEW, an UPDATE for each chunk, FINAL (R104). -/
def streamCommands (seed : Word) (chunks : List (List Byte)) (last : List Byte) : List Instr :=
  .new seed :: (chunks.map Instr.update ++ [.final last])

/-- Two blocks that agree in everything but the values of bytes and accumulators: `T`, `fin` and the lengths of the
buffers (R108). -/
def SameShape (b b' : Block) : Prop :=
  b.totalLength = b'.totalLength ∧ b.fin = b'.fin ∧ b.tail.length = b'.tail.length ∧ b.fbuf.length = b'.fbuf.length

/-- The same command with a payload of the same length; seeds and bytes may differ (R108). -/
def SameForm : Instr → Instr → Prop
  | .new _, .new _ => True
  | .update d, .update d' => d.length = d'.length
  | .final d, .final d' => d.length = d'.length
  | .hash _ d, .hash _ d' => d.length = d'.length
  | _, _ => False

end Sys2Proof.Machine
end

