-- ==== Sys2Proof/Certificates/Slice0/Obligations.lean ====
section
/-! DEFINITION. The statements for the provers, from the numbered rules of `spec/`. -/

open Sys2Proof Sys2Proof.Machine

/-! Mixer and reads -/

/-- R62: MUM gives the two halves of the exact unsigned product; its corner cases and its example. -/
def Obligations.MumSplitsTheExactProduct : Prop :=
  (∀ a b : Word, (mum a b).1.toNat + 2 ^ 64 * (mum a b).2.toNat = a.toNat * b.toNat) ∧
  (∀ a : Word, mum 0 a = (0, 0) ∧ mum a 0 = (0, 0) ∧ mum 1 a = (a, 0)) ∧
  (∀ a b : Word, mum a b = mum b a) ∧
  mum 0xffffffffffffffff 0xffffffffffffffff = (0x0000000000000001, 0xfffffffffffffffe) ∧
  mum 0x0000000100000000 0x0000000100000000 = (0, 1) ∧
  mum 0x0123456789abcdef 0xfedcba9876543210 = (0x2236d88fe5618cf0, 0x0121fa00ad77d742)

/-- R64: MIX is the exclusive or of the halves of the product; its corner cases and its example. -/
def Obligations.MixFoldsTheProduct : Prop :=
  (∀ a b : Word, mix a b = BitVec.ofNat 64 (a.toNat * b.toNat) ^^^ BitVec.ofNat 64 (a.toNat * b.toNat / 2 ^ 64)) ∧
  (∀ a b : Word, mix a b = (mum a b).1 ^^^ (mum a b).2) ∧
  (∀ a : Word, mix 0 a = 0 ∧ mix a 0 = 0 ∧ mix 1 a = a) ∧
  (∀ a b : Word, mix a b = mix b a) ∧
  mix 0xffffffffffffffff 0xffffffffffffffff = 0xffffffffffffffff ∧
  mix 0x0000000100000000 0x0000000100000000 = 1 ∧
  mix 0xa0761d6478bd642f 0xe7037ed1a0b428db = 0x1ff5c2923a788d2c

/-- R33: a read of 1, 4 or 8 bytes is the sum of the bytes it names, each times `256^k`. -/
def Obligations.MemReadIsLittleEndian : Prop :=
  (∀ (s : List Byte) (off n : Nat), n = 1 ∨ n = 4 ∨ n = 8 → off + n ≤ s.length →
    (memRead s off n).toNat = ((List.range n).map (fun k => (s.getD (off + k) 0).toNat * 256 ^ k)).sum) ∧
  memRead [0x00, 0x01, 0x02, 0x03, 0x04, 0x05, 0x06, 0x07] 0 8 = 0x0706050403020100 ∧
  memRead [0x61, 0x62, 0x63] 1 1 = 0x62

/-! RoundAbsorber -/

/-- R67: LANE writes its own accumulator with the MIX of the two words, the lane's constant and the accumulator, and
nothing else; a zero operand of MIX makes it 0; the lanes' constants; the rule's example. -/
def Obligations.LaneWritesItsAccumulatorOnly : Prop :=
  (∀ (cfg : Config) (op : Lane) (w0 w1 : Word) (b : Block),
    (lane cfg op w0 w1 b).acc op = mix (w0 ^^^ laneConst cfg op) (w1 ^^^ b.acc op) ∧
    (∀ j, j ≠ op → (lane cfg op w0 w1 b).acc j = b.acc j) ∧
    (lane cfg op w0 w1 b).totalLength = b.totalLength ∧ (lane cfg op w0 w1 b).fin = b.fin ∧
    (lane cfg op w0 w1 b).tail = b.tail ∧ (lane cfg op w0 w1 b).fbuf = b.fbuf ∧
    (w0 = laneConst cfg op ∨ w1 = b.acc op → (lane cfg op w0 w1 b).acc op = 0)) ∧
  (∀ cfg : Config, laneConst cfg .lane0 = cfg.p1 ∧ laneConst cfg .lane1 = cfg.p2 ∧ laneConst cfg .lane2 = cfg.p3) ∧
  (∀ (cfg : Config) (b : Block), cfg.p1 = 0xe7037ed1a0b428db → b.acc0 = 0x1ff5c2923a788d2c →
    (lane cfg .lane0 0x0706050403020100 0x0f0e0d0c0b0a0908 b).acc0 = 0x60cbf30c23c498f7)

/-- R68, R70: on a buffer of whole steps ABSORB takes step `j` on bytes `16j` to `16j + 15` in lane
`((T mod 48) div 16 + j) mod 3`, then adds the length to `T` once; `tail`, `fbuf` and `fin` stay; the empty buffer
changes nothing; R68's example, for a configuration with the constants it uses. -/
def Obligations.AbsorbStepsRoundRobinFromT : Prop :=
  (∀ (cfg : Config) (b : Block), cfg.p1 = 0xe7037ed1a0b428db → cfg.p2 = 0x8ebc6af09c88c6e3 → cfg.p3 = 0x589965cc75374cc3 →
    b.acc0 = 0x1ff5c2923a788d2c → b.acc1 = 0x1ff5c2923a788d2c → b.acc2 = 0x1ff5c2923a788d2c → b.totalLength = 0 →
    absorb cfg (ramp 64) b = { b with acc0 := 0x065c16288b3fc24a, acc1 := 0xfa2817ed92875ae6,
                                      acc2 := 0x2b05c90025648da4, totalLength := 64 }) ∧
  ∀ (cfg : Config) (b : Block),
    absorb cfg [] b = b ∧
    ∀ buf : List Byte, buf.length % 16 = 0 →
      absorb cfg buf b =
        ((List.range (buf.length / 16)).foldl
          (fun x j => lane cfg (laneOf (b.totalLength.toNat % 48 / 16 + j)) (memRead buf (16 * j) 8)
            (memRead buf (16 * j + 8) 8) x) b).setTotal (b.totalLength + BitVec.ofNat 64 buf.length) ∧
      (absorb cfg buf b).tail = b.tail ∧ (absorb cfg buf b).fbuf = b.fbuf ∧ (absorb cfg buf b).fin = b.fin

/-- From a byte count `T` that is a multiple of 16, ABSORB takes step `j` in lane `(T div 16 + j) mod 3`, so that absorption
resumes where the bytes counted so far ended. From `T = 0`, bytes divided in any way into ABSORBs of whole steps are
absorbed with message bytes `16j` to `16j + 15` in lane `j mod 3`, while `T` stays below `2^64`. For every
configuration. -/
def Obligations.AbsorptionResumesAtTheLaneOfT : Prop :=
  let inLane := fun k : Nat => if k % 3 = 0 then Lane.lane0 else if k % 3 = 1 then Lane.lane1 else Lane.lane2
  let stepsFrom := fun (cfg : Config) (first : Nat) (msg : List Byte) (b : Block) =>
    (List.range (msg.length / 16)).foldl
      (fun x j => lane cfg (inLane (first + j)) (memRead msg (16 * j) 8) (memRead msg (16 * j + 8) 8) x) b
  ∀ (cfg : Config) (b : Block),
    (b.totalLength.toNat % 16 = 0 →
      laneIndex b.totalLength = inLane (b.totalLength.toNat / 16) ∧
      ∀ buf : List Byte, buf.length % 16 = 0 →
        absorb cfg buf b = (stepsFrom cfg (b.totalLength.toNat / 16) buf b).setTotal
          (b.totalLength + BitVec.ofNat 64 buf.length)) ∧
    (b.totalLength = 0 → ∀ bufs : List (List Byte), (∀ buf ∈ bufs, buf.length % 16 = 0) → bufs.flatten.length < 2 ^ 64 →
      bufs.foldl (fun x buf => absorb cfg buf x) b =
        (stepsFrom cfg 0 bufs.flatten b).setTotal (BitVec.ofNat 64 bufs.flatten.length))

/-- Two ABSORBs of whole steps are one ABSORB of the concatenation, while `T` does not pass `2^64`. -/
def Obligations.AbsorbComposes : Prop :=
  ∀ (cfg : Config) (x y : List Byte) (b : Block), b.totalLength.toNat % 16 = 0 → x.length % 16 = 0 → y.length % 16 = 0 →
    b.totalLength.toNat + x.length + y.length < 2 ^ 64 → absorb cfg (x ++ y) b = absorb cfg y (absorb cfg x b)

/-! StreamState -/

/-- R73: SS.INIT, where lanes 1 and 2 start at the mixed seed (R74's default): it writes everything but `fbuf`, in either
phase and for every seed; its two corner cases, for a configuration with the constants they use. -/
def Obligations.SsInitMixesTheSeed : Prop :=
  ∀ cfg : Config, (∀ m, cfg.laneInit m = m) →
    (∀ (seed : Word) (b : Block),
      ssInit cfg seed b =
        { acc0 := seed ^^^ mix (seed ^^^ cfg.p0) cfg.p1, acc1 := seed ^^^ mix (seed ^^^ cfg.p0) cfg.p1,
          acc2 := seed ^^^ mix (seed ^^^ cfg.p0) cfg.p1,
          totalLength := 0, fin := false, tail := [], fbuf := b.fbuf }) ∧
    (∀ b : Block, (ssInit cfg cfg.p0 b).acc0 = cfg.p0) ∧
    (∀ b : Block, cfg.p0 = 0xa0761d6478bd642f → cfg.p1 = 0xe7037ed1a0b428db →
      (ssInit cfg 0 b).acc0 = 0x1ff5c2923a788d2c)

/-- R76: SS.UPDATE raises on a finalized state; otherwise, on a positive multiple of 64 bytes, it absorbs
`16 * (|c| div 16) - 16` bytes of `c = tail ‖ buf` and keeps the rest in `tail`, leaving `fbuf` and `fin`. From an empty
or a 16-byte tail that is all but the last 16 bytes of `buf`. -/
def Obligations.SsUpdateReservesTheLastStep : Prop :=
  ∀ (cfg : Config) (buf : List Byte) (b : Block), buf.length % 64 = 0 → 0 < buf.length →
    (b.fin = true → ssUpdate cfg buf b = .raised .alreadyFinalized) ∧
    (b.fin = false →
      let c := b.tail ++ buf
      let n := 16 * (c.length / 16) - 16
      ∃ b', ssUpdate cfg buf b = .done b' ∧ b' = { absorb cfg (c.take n) b with tail := c.drop n } ∧
        b'.fbuf = b.fbuf ∧ b'.fin = false ∧
        (b.tail = [] ∨ b.tail.length = 16 → n = c.length - 16 ∧ b'.tail = buf.drop (buf.length - 16) ∧
          b'.totalLength = b.totalLength + BitVec.ofNat 64 (c.length - 16)))

/-- SS.UPDATE raises on a finalized state, has no meaning outside its contract, and leaves the block of a
legal open stream on the empty buffer. -/
def Obligations.SsUpdateOutsideItsContract : Prop :=
  ∀ (cfg : Config) (buf : List Byte) (b : Block),
    (b.fin = true → ssUpdate cfg buf b = .raised .alreadyFinalized) ∧
    (b.fin = false → buf.length % 64 ≠ 0 → ssUpdate cfg buf b = .outsideContract) ∧
    (b.fin = false → b.tail = [] ∨ b.tail.length = 16 → ssUpdate cfg [] b = .done b)

/-- In every reachable entry state of SS.FINAL the peel is whole steps, stops at the last round boundary before
the end of the message unless the block is past it already, and leaves 1 to 48 bytes of a message that is not empty. -/
def Obligations.PeelStopsAtTheLastRoundBoundary : Prop :=
  ∀ l : Nat,
    let t0 := absorbedByUpdates l
    let n := peelLength t0 (l - t0)
    n % 16 = 0 ∧ t0 + n = roundRobinBytes l ∧ (0 < l → t0 + n < l ∧ l - (t0 + n) ≤ 48) ∧
    (l ≤ 48 → t0 + n = 0) ∧
    (49 ≤ l → (t0 + n = 48 * ((l - 1) / 48) ↔ ¬ (128 ≤ l ∧ (l % 192 = 0 ∨ 128 ≤ l % 192 ∧ l % 192 ≤ 144))))

/-- FINAL of a message of at most 16 bytes of which nothing was forwarded, written out byte by byte: the
empty, short and medium paths, then the final mixing with the length. That `T` and `acc` keep the computed values after
FINAL (`T` at the length, `acc` as it was) is the model's choice (log entry 8; R28 leaves it to the model). -/
def Obligations.FinalOfASmallMessage : Prop :=
  ∀ (data : List Byte) (s : State), s.block.fin = false → s.block.tail = [] → s.block.totalLength = 0 →
    let msg := s.block.fbuf ++ data
    let at' := fun i => (msg.getD i 0).toNat
    let word32 := fun o => at' o + 256 * at' (o + 1) + 65536 * at' (o + 2) + 16777216 * at' (o + 3)
    let answer := fun (a b : Nat) => Host.Outcome.next (φ := Fault) (ρ := Refusal)
      { s with block := { s.block with fin := true, fbuf := [], totalLength := BitVec.ofNat 64 msg.length }
               responses := s.responses ++ encodeResponse (.digest (finalMix specConfig
                 (BitVec.ofNat 64 a, BitVec.ofNat 64 b) s.block.acc0 (BitVec.ofNat 64 msg.length))) }
    (msg.length = 0 → exec (.final data) s = answer 0 0) ∧
    (1 ≤ msg.length → msg.length ≤ 3 → exec (.final data) s =
      answer (65536 * at' 0 + 256 * at' (msg.length / 2) + at' (msg.length - 1)) 0) ∧
    (4 ≤ msg.length → msg.length ≤ 16 →
      let k := if msg.length < 8 then 0 else if msg.length < 16 then 4 else 8
      exec (.final data) s = answer (4294967296 * word32 0 + word32 k)
        (4294967296 * word32 (msg.length - 4) + word32 (msg.length - 4 - k)))

/-! Commands: what each does, and that it completes -/

/-- NEW completes in every state, whatever the phase: the whole block is the opened stream's, the response is OK, and the
channel's unread bytes and the reset request stay (44_hasher_commands.md section 1). That `acc[1]` and `acc[2]` start at
the mixed seed is PRESUMED by the spec (R74; log entry 6). -/
def Obligations.NewOpensAStream : Prop :=
  ∀ (seed : Word) (s : State),
    exec (.new seed) s = .next
      { s with
        block := { acc0 := seed ^^^ mix (seed ^^^ specConfig.p0) specConfig.p1,
                   acc1 := seed ^^^ mix (seed ^^^ specConfig.p0) specConfig.p1,
                   acc2 := seed ^^^ mix (seed ^^^ specConfig.p0) specConfig.p1,
                   totalLength := 0, fin := false, tail := [], fbuf := [] }
        responses := s.responses ++ encodeResponse .ok }

/-- R98: UPDATE completes in every state: in phase OPEN it forwards the whole 64-byte blocks of `fbuf ‖ data`, of which
SS.UPDATE absorbs all but the last step, and buffers the rest; in phase CLOSED it answers the error and changes nothing. -/
def Obligations.UpdateForwardsWholeBlocks : Prop :=
  ∀ (data : List Byte) (s : State),
    let bytes := s.block.fbuf ++ data
    let n := 64 * (bytes.length / 64)
    let c := s.block.tail ++ bytes.take n
    let k := 16 * (c.length / 16) - 16
    (s.block.fin = false → n = 0 → exec (.update data) s = .next
      { s with block := { s.block with fbuf := bytes }, responses := s.responses ++ encodeResponse .ok }) ∧
    (s.block.fin = false → 0 < n → exec (.update data) s = .next
      { s with block := { absorb specConfig (c.take k) s.block with tail := c.drop k, fbuf := bytes.drop n }
               responses := s.responses ++ encodeResponse .ok }) ∧
    (s.block.fin = true → exec (.update data) s =
      .next { s with responses := s.responses ++ encodeResponse (.err .alreadyFinalized) }) ∧
    (∀ t, s.block.fin = false → exec (.update data) s = .next t → t.block.fbuf.length = bytes.length % 64)

/-- UPDATE on a legal open block: `|fbuf|` is the sum of the lengths modulo 64; when a block is completed,
`tail` holds the last 16 bytes forwarded and `T` counts all bytes before them. -/
def Obligations.UpdateSplitsTheMessage : Prop :=
  ∀ (data : List Byte) (s : State), s.block.fin = false → s.block.Legal specConfig →
    ∃ t, exec (.update data) s = .next t ∧
      t.block.fin = false ∧
      t.block.fbuf.length = (s.block.fbuf.length + data.length) % 64 ∧
      (s.block.fbuf.length + data.length < 64 →
        t.block = { s.block with fbuf := s.block.fbuf ++ data }) ∧
      (64 ≤ s.block.fbuf.length + data.length →
        let bytes := s.block.fbuf ++ data
        let n := 64 * (bytes.length / 64)
        t.block.tail = (bytes.take n).drop (n - 16) ∧ t.block.fbuf = bytes.drop n ∧
        t.block.totalLength = s.block.totalLength + BitVec.ofNat 64 (s.block.tail.length + n - 16))

/-- R99: FINAL completes in every state. In phase OPEN: `fbuf` is emptied, the whole blocks of `fbuf ‖ data` go to
SS.UPDATE when there is one, the rest goes to SS.FINAL, whose digest is the answer; the block is CLOSED with both buffers
empty, and the unread commands and the reset request stay. In phase CLOSED: the error and no change. -/
def Obligations.FinalClosesTheStream : Prop :=
  ∀ (data : List Byte) (s : State),
    (s.block.fin = false →
      let bytes := s.block.fbuf ++ data
      let n := 64 * (bytes.length / 64)
      ∃ (b1 b2 : Block) (d : Word),
        (n = 0 → b1 = { s.block with fbuf := [] }) ∧
        (0 < n → ssUpdate specConfig (bytes.take n) { s.block with fbuf := [] } = .done b1) ∧
        (bytes.drop n).length < 64 ∧ ssFinal specConfig (bytes.drop n) b1 = .done (b2, d) ∧
        exec (.final data) s = .next { s with block := b2, responses := s.responses ++ encodeResponse (.digest d) } ∧
        b2.fin = true ∧ b2.tail = [] ∧ b2.fbuf = []) ∧
    (s.block.fin = true → exec (.final data) s =
      .next { s with responses := s.responses ++ encodeResponse (.err .alreadyFinalized) })

/-- HASH completes in every state with the digest `D` of its payload, and leaves the block CLOSED with both buffers empty
and `T` at the length (44_hasher_commands.md sections 1 and 3). That `T` keeps the computed value after HASH is the model's
choice (log entry 8; R28 leaves it to the model). -/
def Obligations.HashAnswersTheDigestOfItsPayload : Prop :=
  ∀ (seed : Word) (data : List Byte) (s : State), data.length < 2 ^ 64 →
    ∃ b, exec (.hash seed data) s = .next
        { s with block := b
                 responses := s.responses ++ encodeResponse (.digest (digest specConfig seed data)) } ∧
      b.fin = true ∧ b.tail = [] ∧ b.fbuf = [] ∧ b.totalLength = BitVec.ofNat 64 data.length

/-- R55: HASH is exactly NEW, without its response, and then FINAL, with the one response of the FINAL; FINAL with no
operand is FINAL of the empty sequence, NEW with no operand is NEW 0. -/
def Obligations.HashIsNewThenFinal : Prop :=
  (∀ (seed : Word) (data : List Byte) (s : State),
    ∃ t, exec (.new seed) s = .next t ∧
      exec (.hash seed data) s = exec (.final data) { t with responses := s.responses } ∧
      ∃ u d, exec (.hash seed data) s = .next u ∧ u.responses = s.responses ++ encodeResponse (.digest d) ∧
        u.block.fin = true) ∧
  assemble (.final none) = some (.final []) ∧ assemble (.new none) = some (.new 0)

/-- NEW and HASH keep nothing of the block they find: neither the new state nor the answer depends on it
(10_state.md section 7; 44_hasher_commands.md section 3; 70_reset_and_hazards.md section 3). -/
def Obligations.NewAndHashForgetTheOldStream : Prop :=
  ∀ (seed : Word) (data : List Byte) (b : Block) (s : State),
    exec (.new seed) (s.setBlock b) = exec (.new seed) s ∧
    exec (.hash seed data) (s.setBlock b) = exec (.hash seed data) s

/-- In phase CLOSED, UPDATE and FINAL answer 81 and change nothing else, whatever their payload; no other command and no
other phase answers it (60_exceptions.md section 1). That the state is untouched and that the status byte is 81 are the
spec's own decisions D10 and D4. -/
def Obligations.AlreadyFinalizedIsTheOnlyError : Prop :=
  (∀ (data : List Byte) (s : State), s.block.fin = true →
    exec (.update data) s = .next { s with responses := s.responses ++ [0x81] } ∧
    exec (.final data) s = .next { s with responses := s.responses ++ [0x81] }) ∧
  (∀ (i : Instr) (s t : State), exec i s = .next t → t.responses = s.responses ++ [0x81] →
    s.block.fin = true ∧ ((∃ data, i = .update data) ∨ (∃ data, i = .final data)))

/-- R117: on a finalized block a failing command fails again, any number of times, each with its own error response and no
other effect, in every configuration; the way out is NEW, or HASH, which keep nothing of the old stream. -/
def Obligations.FailedCommandsFailAgain : Prop :=
  (∀ (cfg : Config) (is : List Instr) (s : State), s.block.fin = true →
    (∀ i ∈ is, (∃ data, i = .update data) ∨ (∃ data, i = .final data)) →
    runCommands cfg is s = .next
      { s with responses := s.responses ++ (is.map (fun _ => encodeResponse (.err .alreadyFinalized))).flatten }) ∧
  (∀ (seed : Word) (data : List Byte) (s : State), s.block.fin = true →
    (∃ t, exec (.new seed) s = .next t ∧ t.block.fin = false ∧ ∀ b, exec (.new seed) (s.setBlock b) = .next t) ∧
    (∃ t d, exec (.hash seed data) s = .next t ∧ t.responses = s.responses ++ encodeResponse (.digest d) ∧
      ∀ b, exec (.hash seed data) (s.setBlock b) = .next t))

/-- R130: after the FINAL that closes a stream, a second FINAL and an UPDATE fail and change nothing; the digest is not
repeated. -/
def Obligations.FinalSucceedsOncePerStream : Prop :=
  ∀ (first data : List Byte) (s : State), s.block.fin = false →
    ∃ t d, exec (.final first) s = .next t ∧ t.responses = s.responses ++ encodeResponse (.digest d) ∧
      exec (.final data) t = .next { t with responses := t.responses ++ encodeResponse (.err .alreadyFinalized) } ∧
      exec (.update data) t = .next { t with responses := t.responses ++ encodeResponse (.err .alreadyFinalized) }

/-- R112: every command completes in every state with exactly one response, and the response is the error only for UPDATE
and FINAL in phase CLOSED: no payload, seed, length or counter value is an error, a fault or a refusal. The unread
commands and the reset request are what they were. -/
def Obligations.NoOtherConditionIsAnError : Prop :=
  ∀ (i : Instr) (s : State), ∃ t r, exec i s = .next t ∧ t.responses = s.responses ++ encodeResponse r ∧
    (r = .err .alreadyFinalized ↔ s.block.fin = true ∧ ((∃ data, i = .update data) ∨ (∃ data, i = .final data))) ∧
    t.commands = s.commands ∧ t.resetRequest = s.resetRequest

/-- The phase diagram, every row (10_state.md section 7, where the rows of NEW and HASH in phase OPEN and those from a
reset are the spec's own decisions D7, D8, D9): the next phase and the response; in the two error rows the block is
unchanged. -/
def Obligations.PhaseDiagramHolds : Prop :=
  ∀ (i : Instr) (s : State), ∃ t r, exec i s = .next t ∧ t.block.phase = phaseAfter s.block.phase i ∧
    t.responses = s.responses ++ encodeResponse r ∧ Answers s.block.phase i r ∧
    (r = .err .alreadyFinalized → t.block = s.block)

/-- The bytes counted in `T`, held in `tail` and held in `fbuf` add up to the bytes received, modulo
`2^64`; FINAL leaves them all in `T`. That `T` keeps the computed value after FINAL is the model's choice (log entry 8; R28
leaves it to the model). -/
def Obligations.EveryByteIsCounted : Prop :=
  ∀ (data : List Byte) (s t : State), s.block.fin = false →
    (exec (.update data) s = .next t →
      t.block.totalLength + BitVec.ofNat 64 (t.block.tail.length + t.block.fbuf.length) =
        s.block.totalLength + BitVec.ofNat 64 (s.block.tail.length + s.block.fbuf.length + data.length)) ∧
    (exec (.final data) s = .next t →
      t.block.totalLength =
        s.block.totalLength + BitVec.ofNat 64 (s.block.tail.length + s.block.fbuf.length + data.length))

/-- What a command does to `T`, `fin` and the lengths of the buffers, and the length of its response, depends on
lengths and `fin` only, never on the values of message bytes, seed or accumulators; for every configuration. After FINAL
and HASH this says what `T` is, which is the model's choice (log entry 8; R28 leaves it to the model). -/
def Obligations.ControlDependsOnLengthsOnly : Prop :=
  ∀ (cfg : Config) (i i' : Instr) (s s' t : State), SameForm i i' → SameShape s.block s'.block →
    runCommand cfg i s = .next t →
    ∃ t', runCommand cfg i' s' = .next t' ∧ SameShape t.block t'.block ∧
      t.responses.length + s'.responses.length = t'.responses.length + s.responses.length

/-! The digest as a function of seed and message -/

/-- NEW gives the block that holds the empty message, and UPDATE takes the block that holds `msg` to the block
that holds `msg ‖ data`: the state depends on the concatenation only. For every configuration. -/
def Obligations.UpdateExtendsTheMessage : Prop :=
  ∀ (cfg : Config) (seed : Word),
    (∀ s : State, runCommand cfg (.new seed) s = .next ((s.setBlock (streamBlock cfg seed [])).respond .ok)) ∧
    ∀ (msg data : List Byte) (s : State), s.block = streamBlock cfg seed msg → msg.length + data.length < 2 ^ 64 →
      runCommand cfg (.update data) s = .next ((s.setBlock (streamBlock cfg seed (msg ++ data))).respond .ok)

/-- FINAL on the block that holds `msg` answers `D(seed, msg ‖ data)`. For every configuration. -/
def Obligations.FinalAnswersTheDigestOfTheMessage : Prop :=
  ∀ (cfg : Config) (seed : Word) (msg data : List Byte) (s : State), s.block = streamBlock cfg seed msg →
    msg.length + data.length < 2 ^ 64 →
    ∃ b, runCommand cfg (.final data) s =
      .next ((s.setBlock b).respond (.digest (digest cfg seed (msg ++ data))))

/-- For every seed, every number of chunks of any sizes, from any state and for every configuration, NEW, the
UPDATEs and FINAL complete, and end with the response and the block of HASH of the concatenation. That `T` and `acc` of
that block are the computed ones is the model's choice (log entry 8; R28 leaves it to the model). -/
def Obligations.DigestIgnoresChunking : Prop :=
  ∀ (cfg : Config) (seed : Word) (chunks : List (List Byte)) (last : List Byte) (s : State),
    (chunks.flatten ++ last).length < 2 ^ 64 →
    ∃ b, runCommands cfg (streamCommands seed chunks last) s = .next
        { s with block := b
                 responses := s.responses ++ List.replicate (chunks.length + 1) 0x00 ++
                   encodeResponse (.digest (digest cfg seed (chunks.flatten ++ last))) } ∧
      runCommand cfg (.hash seed (chunks.flatten ++ last)) s = .next
        { s with block := b
                 responses := s.responses ++ encodeResponse (.digest (digest cfg seed (chunks.flatten ++ last))) }

/-- Where lanes 1 and 2 start at the mixed seed, the block's digest is the one-shot form's at every length up to 127
and, beyond, at every length but those with `L mod 192 = 0` or `128 ≤ L mod 192 ≤ 144`. -/
def Obligations.DigestIsTheOneShotFormOffTheListedLengths : Prop :=
  ∀ (cfg : Config) (seed : Word) (msg : List Byte), (∀ m, cfg.laneInit m = m) →
    (msg.length ≤ 127 ∨ ¬ (msg.length % 192 = 0 ∨ 128 ≤ msg.length % 192 ∧ msg.length % 192 ≤ 144)) →
    digest cfg seed msg = oneShot cfg seed msg

/-! Responses -/

/-- The bytes of each response; bit 7 of the status byte is the error flag and bits 6 to 0 of an error's are the
cause code, which is 1. -/
def Obligations.ResponseBytes : Prop :=
  encodeResponse .ok = [0x00] ∧ encodeResponse (.err .alreadyFinalized) = [0x81] ∧
  (∀ d : Word, ∃ bytes, encodeResponse (.digest d) = 0x01 :: bytes ∧ bytes.length = 8 ∧ leValue bytes = d.toNat) ∧
  (∀ r : Response, ∃ status rest, encodeResponse r = status :: rest ∧
    (status.getLsbD 7 = true ↔ r = .err .alreadyFinalized) ∧
    (r = .err .alreadyFinalized → status.toNat % 128 = 1))

/-- A stream of responses reads in one way only: no response's bytes begin another's. -/
def Obligations.ResponsesReadInOneWay : Prop :=
  ∀ (r r' : Response) (xs ys : List Byte), encodeResponse r ++ xs = encodeResponse r' ++ ys → r = r' ∧ xs = ys

/-- R103: the rendering has 16 characters; character `i` is the hexadecimal digit of bits `63 - 4i` to `60 - 4i`; two
digests with one rendering are one; the rule's example. -/
def Obligations.RenderingIsSixteenHexDigits : Prop :=
  (∀ d : Word, (renderDigest d).length = 16 ∧
    ∀ i, i < 16 → (renderDigest d)[i]? = "0123456789abcdef".toList[(d >>> (60 - 4 * i)).toNat % 16]?) ∧
  (∀ d d' : Word, renderDigest d = renderDigest d' → d = d') ∧
  renderDigest 0x0409638ee2bde459 = "0409638ee2bde459".toList

/-! Encoding -/

/-- Decoding the encoding of any command that can be sent gives it back with the bytes after it, for every
`MAX_PAYLOAD`. -/
def Obligations.DecodeEncodeRoundTrip : Prop :=
  ∀ (maxPayload : Nat) (i : Instr) (rest : List Byte), i.wellFormed maxPayload = true →
    decodeCommand maxPayload (encode i ++ rest) = .command i rest

/-- Whatever decodes to a command is that command's encoding, byte for byte, and a command that can be sent:
each command has one spelling. -/
def Obligations.EncodeDecodeRoundTrip : Prop :=
  ∀ (maxPayload : Nat) (bytes rest : List Byte) (i : Instr), decodeCommand maxPayload bytes = .command i rest →
    bytes = encode i ++ rest ∧ i.wellFormed maxPayload = true

/-- An opcode byte 0 or above 4 is refused, a command cut short is refused, and a `len` above `MAX_PAYLOAD` is
refused; none is taken for a command. -/
def Obligations.UndecodableBytesAreRefused : Prop :=
  ∀ maxPayload : Nat,
    (∀ (op : Byte) (rest : List Byte), op = 0 ∨ 5 ≤ op.toNat → decodeCommand maxPayload (op :: rest) = .unknownOpcode op) ∧
    (∀ (i : Instr) (k : Nat), i.wellFormed maxPayload = true → 0 < k → k < (encode i).length →
      decodeCommand maxPayload ((encode i).take k) = .truncated) ∧
    (∀ (data rest : List Byte) (seed : Word), maxPayload < data.length → data.length < 2 ^ 64 →
      decodeCommand maxPayload (encode (.update data) ++ rest) = .oversize data.length ∧
      decodeCommand maxPayload (encode (.final data) ++ rest) = .oversize data.length ∧
      decodeCommand maxPayload (encode (.hash seed data) ++ rest) = .oversize data.length)

/-- Words written out from the spec's encodings decode to the commands they stand for. -/
def Obligations.WrittenOutCommandsDecode : Prop :=
  decodeCommand specConfig.maxPayload [0x01, 0x02, 0x00, 0x00, 0x00, 0x00, 0x00, 0x00, 0x00] = .command (.new 2) [] ∧
  decodeCommand specConfig.maxPayload [0x02, 0x01, 0x00, 0x00, 0x00, 0x00, 0x00, 0x00, 0x00, 0x78] =
    .command (.update [0x78]) [] ∧
  decodeCommand specConfig.maxPayload
    [0x03, 0x03, 0x00, 0x00, 0x00, 0x00, 0x00, 0x00, 0x00, 0x61, 0x62, 0x63] = .command (.final [0x61, 0x62, 0x63]) [] ∧
  decodeCommand specConfig.maxPayload
    [0x04, 0x01, 0x00, 0x00, 0x00, 0x00, 0x00, 0x00, 0x00, 0x01, 0x00, 0x00, 0x00, 0x00, 0x00, 0x00, 0x00, 0x61] =
    .command (.hash 1 [0x61]) []

/-- An omitted seed is 0, an omitted FINAL payload is empty, a text of characters below 128 is its ASCII bytes, one byte a
character in order, and `ramp(n)` has byte `i mod 256` at `i`. That a text with a character outside ASCII stands for no
command is the model's choice (log entry 17). -/
def Obligations.AssemblerDefaults : Prop :=
  assemble (.new none) = some (.new 0) ∧ assemble (.final none) = some (.final []) ∧
  (∀ data, assemble (.hash data none) = assemble (.hash data (some 0))) ∧
  (∀ seed, assemble (.new (some seed)) = some (.new seed)) ∧
  (∀ bytes seed, assemble (.hash (.hex bytes) (some seed)) = some (.hash seed bytes) ∧
    assemble (.update (.hex bytes)) = some (.update bytes) ∧ assemble (.final (some (.hex bytes))) = some (.final bytes)) ∧
  assemble (.update (.text "abc")) = some (.update [0x61, 0x62, 0x63]) ∧
  (∀ text : String, (∀ c ∈ text.toList, c.toNat < 128) →
    ∃ bytes : List Byte, bytes.map BitVec.toNat = text.toList.map Char.toNat ∧
      assemble (.update (.text text)) = some (.update bytes) ∧ assemble (.final (some (.text text))) = some (.final bytes) ∧
      ∀ seed, assemble (.hash (.text text) (some seed)) = some (.hash seed bytes)) ∧
  (∀ text : String, (∃ c ∈ text.toList, 128 ≤ c.toNat) →
    assemble (.update (.text text)) = none ∧ assemble (.final (some (.text text))) = none ∧
    ∀ seed, assemble (.hash (.text text) seed) = none) ∧
  (∀ n : Nat, assemble (.update (.ramp n)) = some (.update (ramp n)) ∧ (ramp n).length = n ∧
    ∀ i, i < n → (ramp n)[i]? = some (BitVec.ofNat 8 (i % 256)))

/-! Step, reset, invariants -/

/-- With no reset asked for, when the bytes at the front of the command channel decode to a command `i`, a
step is `exec` of `i` on the state with those bytes consumed. -/
def Obligations.StepRunsTheDecodedCommand : Prop :=
  ∀ (s : State) (i : Instr) (rest : List Byte), s.resetRequest = false →
    decodeCommand specConfig.maxPayload s.commands = .command i rest →
    step s = exec i { s with commands := rest }

/-- Bytes that spell no command are refused by the step that meets them, by name, before any command runs. -/
def Obligations.StepRefusesUndecodableBytes : Prop :=
  ∀ s : State, s.resetRequest = false →
    (∀ (op : Byte) (rest : List Byte), s.commands = op :: rest → op = 0 ∨ 5 ≤ op.toNat →
      step s = .refused (.unknownOpcode op)) ∧
    (∀ (i : Instr) (k : Nat), s.commands = (encode i).take k → i.wellFormed specConfig.maxPayload = true → 0 < k →
      k < (encode i).length → step s = .refused .truncatedCommand)

/-- A channel that holds the encodings of commands one after another runs exactly those commands in that order,
and leaves the bytes after them unread. -/
def Obligations.CommandStreamRunsInOrder : Prop :=
  ∀ (is : List Instr) (rest : List Byte) (s : State), s.resetRequest = false →
    (∀ i ∈ is, i.wellFormed specConfig.maxPayload = true) → s.commands = is.flatMap encode ++ rest →
    Host.Core.run Sys2Proof.core is.length s = runCommands specConfig is { s with commands := rest }

/-- A step that goes on either answers nothing, and then it took a reset or found no command, or consumes exactly one
command and appends exactly one response. -/
def Obligations.OneResponsePerCommand : Prop :=
  ∀ s t : State, step s = .next t →
    (t.responses = s.responses ∧ t.commands = s.commands ∧ (s.resetRequest = true ∨ s.commands = [])) ∨
    (∃ i rest r, decodeCommand specConfig.maxPayload s.commands = .command i rest ∧ t.commands = rest ∧
      t.responses = s.responses ++ encodeResponse r)

/-- Only a reset or a command changes the block. After a reset it is the reset block, whose values of `acc` and `T` are the
model's choice (log entry 7; R29 leaves them unspecified), as is the field that asks for the reset (log entry 9). -/
def Obligations.OnlyResetsAndCommandsChangeTheBlock : Prop :=
  ∀ s t : State, step s = .next t → t.block ≠ s.block →
    (s.resetRequest = true ∧ t.block = State.reset.block) ∨
    (s.resetRequest = false ∧ ∃ i rest, decodeCommand specConfig.maxPayload s.commands = .command i rest)

/-- After reset the block is CLOSED, both buffers are empty, and the constant table is that of R20. (The accumulators
and `T` hold no value there, and nothing is stated about them.) -/
def Obligations.ResetState : Prop :=
  State.reset.block.fin = true ∧ State.reset.block.tail = [] ∧ State.reset.block.fbuf = [] ∧
  specConfig.p0 = 0xa0761d6478bd642f ∧ specConfig.p1 = 0xe7037ed1a0b428db ∧
  specConfig.p2 = 0x8ebc6af09c88c6e3 ∧ specConfig.p3 = 0x589965cc75374cc3

/-- A requested reset abandons any stream and closes the block; after it UPDATE and FINAL answer
`AlreadyFinalized`. That the request is a field of the state, and that the channels survive a reset, are the model's
choice (log entry 9). -/
def Obligations.ResetAbandonsTheStream : Prop :=
  ∀ s : State, s.resetRequest = true →
    ∃ t, step s = .next t ∧ t.block.fin = true ∧ t.block.tail = [] ∧ t.block.fbuf = [] ∧ t.resetRequest = false ∧
      t.commands = s.commands ∧ t.responses = s.responses ∧
      ∀ data, exec (.update data) t = .next { t with responses := t.responses ++ [0x81] } ∧
        exec (.final data) t = .next { t with responses := t.responses ++ [0x81] }

/-- The model's choice of log entry 2, from R124 ("between commands the block simply holds its state"): with no reset asked
for and no byte on the command channel, a step changes nothing. -/
def Obligations.IdleBlockHoldsItsState : Prop :=
  ∀ s : State, s.resetRequest = false → s.commands = [] → step s = .next s

/-- Every step keeps the block legal: the buffers' bounds, empty buffers when CLOSED, and the
counter and the lanes that go with the tail when OPEN. -/
def Obligations.StepKeepsTheBlockLegal : Prop :=
  ∀ s t : State, s.block.Legal specConfig → step s = .next t → t.block.Legal specConfig

/-- The block is legal after reset. -/
def Obligations.ResetBlockIsLegal : Prop :=
  State.reset.block.Legal specConfig
end

