-- ==== Sys2Proof/Laws/State.lean ====
section
/-! SUPPORT. One lemma per field per update of the block and of the state, so that no later proof unfolds a record
update. -/

namespace Sys2Proof.Machine

@[simp] theorem Block.setAcc_lane0_acc0 (b : Block) (v : Word) : (b.setAcc .lane0 v).acc0 = v := rfl
@[simp] theorem Block.setAcc_lane0_acc1 (b : Block) (v : Word) : (b.setAcc .lane0 v).acc1 = b.acc1 := rfl
@[simp] theorem Block.setAcc_lane0_acc2 (b : Block) (v : Word) : (b.setAcc .lane0 v).acc2 = b.acc2 := rfl
@[simp] theorem Block.setAcc_lane0_totalLength (b : Block) (v : Word) : (b.setAcc .lane0 v).totalLength = b.totalLength := rfl
@[simp] theorem Block.setAcc_lane0_fin (b : Block) (v : Word) : (b.setAcc .lane0 v).fin = b.fin := rfl
@[simp] theorem Block.setAcc_lane0_tail (b : Block) (v : Word) : (b.setAcc .lane0 v).tail = b.tail := rfl
@[simp] theorem Block.setAcc_lane0_fbuf (b : Block) (v : Word) : (b.setAcc .lane0 v).fbuf = b.fbuf := rfl

@[simp] theorem Block.setAcc_lane1_acc0 (b : Block) (v : Word) : (b.setAcc .lane1 v).acc0 = b.acc0 := rfl
@[simp] theorem Block.setAcc_lane1_acc1 (b : Block) (v : Word) : (b.setAcc .lane1 v).acc1 = v := rfl
@[simp] theorem Block.setAcc_lane1_acc2 (b : Block) (v : Word) : (b.setAcc .lane1 v).acc2 = b.acc2 := rfl
@[simp] theorem Block.setAcc_lane1_totalLength (b : Block) (v : Word) : (b.setAcc .lane1 v).totalLength = b.totalLength := rfl
@[simp] theorem Block.setAcc_lane1_fin (b : Block) (v : Word) : (b.setAcc .lane1 v).fin = b.fin := rfl
@[simp] theorem Block.setAcc_lane1_tail (b : Block) (v : Word) : (b.setAcc .lane1 v).tail = b.tail := rfl
@[simp] theorem Block.setAcc_lane1_fbuf (b : Block) (v : Word) : (b.setAcc .lane1 v).fbuf = b.fbuf := rfl

@[simp] theorem Block.setAcc_lane2_acc0 (b : Block) (v : Word) : (b.setAcc .lane2 v).acc0 = b.acc0 := rfl
@[simp] theorem Block.setAcc_lane2_acc1 (b : Block) (v : Word) : (b.setAcc .lane2 v).acc1 = b.acc1 := rfl
@[simp] theorem Block.setAcc_lane2_acc2 (b : Block) (v : Word) : (b.setAcc .lane2 v).acc2 = v := rfl
@[simp] theorem Block.setAcc_lane2_totalLength (b : Block) (v : Word) : (b.setAcc .lane2 v).totalLength = b.totalLength := rfl
@[simp] theorem Block.setAcc_lane2_fin (b : Block) (v : Word) : (b.setAcc .lane2 v).fin = b.fin := rfl
@[simp] theorem Block.setAcc_lane2_tail (b : Block) (v : Word) : (b.setAcc .lane2 v).tail = b.tail := rfl
@[simp] theorem Block.setAcc_lane2_fbuf (b : Block) (v : Word) : (b.setAcc .lane2 v).fbuf = b.fbuf := rfl

@[simp] theorem Block.setTotal_acc0 (b : Block) (v : Word) : (b.setTotal v).acc0 = b.acc0 := rfl
@[simp] theorem Block.setTotal_acc1 (b : Block) (v : Word) : (b.setTotal v).acc1 = b.acc1 := rfl
@[simp] theorem Block.setTotal_acc2 (b : Block) (v : Word) : (b.setTotal v).acc2 = b.acc2 := rfl
@[simp] theorem Block.setTotal_totalLength (b : Block) (v : Word) : (b.setTotal v).totalLength = v := rfl
@[simp] theorem Block.setTotal_fin (b : Block) (v : Word) : (b.setTotal v).fin = b.fin := rfl
@[simp] theorem Block.setTotal_tail (b : Block) (v : Word) : (b.setTotal v).tail = b.tail := rfl
@[simp] theorem Block.setTotal_fbuf (b : Block) (v : Word) : (b.setTotal v).fbuf = b.fbuf := rfl

@[simp] theorem Block.addTotal_acc0 (b : Block) (n : Nat) : (b.addTotal n).acc0 = b.acc0 := rfl
@[simp] theorem Block.addTotal_acc1 (b : Block) (n : Nat) : (b.addTotal n).acc1 = b.acc1 := rfl
@[simp] theorem Block.addTotal_acc2 (b : Block) (n : Nat) : (b.addTotal n).acc2 = b.acc2 := rfl
@[simp] theorem Block.addTotal_totalLength (b : Block) (n : Nat) : (b.addTotal n).totalLength = b.totalLength + BitVec.ofNat 64 n := rfl
@[simp] theorem Block.addTotal_fin (b : Block) (n : Nat) : (b.addTotal n).fin = b.fin := rfl
@[simp] theorem Block.addTotal_tail (b : Block) (n : Nat) : (b.addTotal n).tail = b.tail := rfl
@[simp] theorem Block.addTotal_fbuf (b : Block) (n : Nat) : (b.addTotal n).fbuf = b.fbuf := rfl

@[simp] theorem Block.setTail_acc0 (b : Block) (s : List Byte) : (b.setTail s).acc0 = b.acc0 := rfl
@[simp] theorem Block.setTail_acc1 (b : Block) (s : List Byte) : (b.setTail s).acc1 = b.acc1 := rfl
@[simp] theorem Block.setTail_acc2 (b : Block) (s : List Byte) : (b.setTail s).acc2 = b.acc2 := rfl
@[simp] theorem Block.setTail_totalLength (b : Block) (s : List Byte) : (b.setTail s).totalLength = b.totalLength := rfl
@[simp] theorem Block.setTail_fin (b : Block) (s : List Byte) : (b.setTail s).fin = b.fin := rfl
@[simp] theorem Block.setTail_tail (b : Block) (s : List Byte) : (b.setTail s).tail = s := rfl
@[simp] theorem Block.setTail_fbuf (b : Block) (s : List Byte) : (b.setTail s).fbuf = b.fbuf := rfl

@[simp] theorem Block.setFbuf_acc0 (b : Block) (s : List Byte) : (b.setFbuf s).acc0 = b.acc0 := rfl
@[simp] theorem Block.setFbuf_acc1 (b : Block) (s : List Byte) : (b.setFbuf s).acc1 = b.acc1 := rfl
@[simp] theorem Block.setFbuf_acc2 (b : Block) (s : List Byte) : (b.setFbuf s).acc2 = b.acc2 := rfl
@[simp] theorem Block.setFbuf_totalLength (b : Block) (s : List Byte) : (b.setFbuf s).totalLength = b.totalLength := rfl
@[simp] theorem Block.setFbuf_fin (b : Block) (s : List Byte) : (b.setFbuf s).fin = b.fin := rfl
@[simp] theorem Block.setFbuf_tail (b : Block) (s : List Byte) : (b.setFbuf s).tail = b.tail := rfl
@[simp] theorem Block.setFbuf_fbuf (b : Block) (s : List Byte) : (b.setFbuf s).fbuf = s := rfl

@[simp] theorem Block.clearFin_acc0 (b : Block) : (b.clearFin).acc0 = b.acc0 := rfl
@[simp] theorem Block.clearFin_acc1 (b : Block) : (b.clearFin).acc1 = b.acc1 := rfl
@[simp] theorem Block.clearFin_acc2 (b : Block) : (b.clearFin).acc2 = b.acc2 := rfl
@[simp] theorem Block.clearFin_totalLength (b : Block) : (b.clearFin).totalLength = b.totalLength := rfl
@[simp] theorem Block.clearFin_fin (b : Block) : (b.clearFin).fin = false := rfl
@[simp] theorem Block.clearFin_tail (b : Block) : (b.clearFin).tail = b.tail := rfl
@[simp] theorem Block.clearFin_fbuf (b : Block) : (b.clearFin).fbuf = b.fbuf := rfl

@[simp] theorem Block.setFin_acc0 (b : Block) : (b.setFin).acc0 = b.acc0 := rfl
@[simp] theorem Block.setFin_acc1 (b : Block) : (b.setFin).acc1 = b.acc1 := rfl
@[simp] theorem Block.setFin_acc2 (b : Block) : (b.setFin).acc2 = b.acc2 := rfl
@[simp] theorem Block.setFin_totalLength (b : Block) : (b.setFin).totalLength = b.totalLength := rfl
@[simp] theorem Block.setFin_fin (b : Block) : (b.setFin).fin = true := rfl
@[simp] theorem Block.setFin_tail (b : Block) : (b.setFin).tail = b.tail := rfl
@[simp] theorem Block.setFin_fbuf (b : Block) : (b.setFin).fbuf = b.fbuf := rfl

@[simp] theorem State.setBlock_block (s : State) (b : Block) : (s.setBlock b).block = b := rfl
@[simp] theorem State.setBlock_commands (s : State) (b : Block) : (s.setBlock b).commands = s.commands := rfl
@[simp] theorem State.setBlock_responses (s : State) (b : Block) : (s.setBlock b).responses = s.responses := rfl
@[simp] theorem State.setBlock_resetRequest (s : State) (b : Block) : (s.setBlock b).resetRequest = s.resetRequest := rfl

@[simp] theorem State.setCommands_block (s : State) (c : List Byte) : (s.setCommands c).block = s.block := rfl
@[simp] theorem State.setCommands_commands (s : State) (c : List Byte) : (s.setCommands c).commands = c := rfl
@[simp] theorem State.setCommands_responses (s : State) (c : List Byte) : (s.setCommands c).responses = s.responses := rfl
@[simp] theorem State.setCommands_resetRequest (s : State) (c : List Byte) : (s.setCommands c).resetRequest = s.resetRequest := rfl

@[simp] theorem State.respond_block (s : State) (r : Response) : (s.respond r).block = s.block := rfl
@[simp] theorem State.respond_commands (s : State) (r : Response) : (s.respond r).commands = s.commands := rfl
@[simp] theorem State.respond_responses (s : State) (r : Response) : (s.respond r).responses = s.responses ++ encodeResponse r := rfl
@[simp] theorem State.respond_resetRequest (s : State) (r : Response) : (s.respond r).resetRequest = s.resetRequest := rfl

@[simp] theorem takeReset_block (s : State) : (takeReset s).block = Block.reset := rfl
@[simp] theorem takeReset_commands (s : State) : (takeReset s).commands = s.commands := rfl
@[simp] theorem takeReset_responses (s : State) : (takeReset s).responses = s.responses := rfl
@[simp] theorem takeReset_resetRequest (s : State) : (takeReset s).resetRequest = false := rfl

@[simp] theorem Block.acc_lane0 (b : Block) : b.acc .lane0 = b.acc0 := rfl
@[simp] theorem Block.acc_lane1 (b : Block) : b.acc .lane1 = b.acc1 := rfl
@[simp] theorem Block.acc_lane2 (b : Block) : b.acc .lane2 = b.acc2 := rfl

@[simp] theorem Block.acc_setAcc_same (b : Block) (i : Lane) (v : Word) : (b.setAcc i v).acc i = v := by
  cases i <;> rfl

theorem Block.acc_setAcc_other (b : Block) {i j : Lane} (v : Word) (h : j ≠ i) : (b.setAcc i v).acc j = b.acc j := by
  cases i <;> cases j <;> first | rfl | exact absurd rfl h

@[simp] theorem Block.setAcc_totalLength (b : Block) (i : Lane) (v : Word) : (b.setAcc i v).totalLength = b.totalLength := by
  cases i <;> rfl

@[simp] theorem Block.setAcc_fin (b : Block) (i : Lane) (v : Word) : (b.setAcc i v).fin = b.fin := by cases i <;> rfl

@[simp] theorem Block.setAcc_tail (b : Block) (i : Lane) (v : Word) : (b.setAcc i v).tail = b.tail := by cases i <;> rfl

@[simp] theorem Block.setAcc_fbuf (b : Block) (i : Lane) (v : Word) : (b.setAcc i v).fbuf = b.fbuf := by cases i <;> rfl

theorem Block.phase_closed_iff (b : Block) : b.phase = .closed ↔ b.fin = true := by
  cases h : b.fin <;> simp [Block.phase, h]

end Sys2Proof.Machine
end

