-- ==== Sys2Proof/Laws/Ops.lean ====
section
/-! SUPPORT. What each shared operation can do, said once: the mixer, raising the error, ending a command. -/

namespace Sys2Proof.Machine

open Host (Outcome)

theorem mum_fst_toNat (a b : Word) : (mum a b).1.toNat = a.toNat * b.toNat % 2 ^ 64 := by
  simp [mum]

theorem mum_snd_toNat (a b : Word) : (mum a b).2.toNat = a.toNat * b.toNat / 2 ^ 64 := by
  have ha := a.isLt
  have hb := b.isLt
  have h : a.toNat * b.toNat < 2 ^ 64 * 2 ^ 64 := Nat.mul_lt_mul'' ha hb
  simp only [mum, BitVec.toNat_ofNat]
  exact Nat.mod_eq_of_lt (Nat.div_lt_of_lt_mul h)

/-- Raising answers a next state that differs in the response channel only (R116). -/
@[simp] theorem raise_eq (kind : ErrorKind) (s : State) : raise kind s = .next (s.respond (.err kind)) := rfl

@[simp] theorem finish_done {α : Type} (s : State) (a : α) (go : α → State) : finish s (.done a) go = .next (go a) := rfl

@[simp] theorem finish_raised {α : Type} (s : State) (kind : ErrorKind) (go : α → State) :
    finish s (.raised kind : Attempt α) go = raise kind s := rfl

@[simp] theorem finish_outsideContract {α : Type} (s : State) (go : α → State) :
    finish s (.outsideContract : Attempt α) go = .refused .outsideContract := rfl

/-- Everything a command's end can do: go on with a result, raise, or be refused. -/
theorem finish_cases {α : Type} (s : State) (r : Attempt α) (go : α → State) :
    (∃ a, r = .done a ∧ finish s r go = .next (go a)) ∨
    (∃ kind, r = .raised kind ∧ finish s r go = .next (s.respond (.err kind))) ∨
    (r = .outsideContract ∧ finish s r go = .refused .outsideContract) := by
  cases r with
  | done a => exact .inl ⟨a, rfl, rfl⟩
  | raised kind => exact .inr (.inl ⟨kind, rfl, rfl⟩)
  | outsideContract => exact .inr (.inr ⟨rfl, rfl⟩)

/-- The lane of an index depends on the index modulo 3 only. -/
theorem laneOf_mod (k : Nat) : laneOf (k % 3) = laneOf k := by simp [laneOf]

/-- The next lane is the lane of the next index (R68). -/
theorem laneOf_succ (k : Nat) : laneOf (k + 1) = (laneOf k).next := by
  have h : k % 3 = 0 ∨ k % 3 = 1 ∨ k % 3 = 2 := by omega
  rcases h with h | h | h
  · rw [show laneOf k = .lane0 by simp [laneOf, h], show laneOf (k + 1) = .lane1 by
      simp [laneOf, show (k + 1) % 3 = 1 by omega]]; rfl
  · rw [show laneOf k = .lane1 by simp [laneOf, h], show laneOf (k + 1) = .lane2 by
      simp [laneOf, show (k + 1) % 3 = 2 by omega]]; rfl
  · rw [show laneOf k = .lane2 by simp [laneOf, h], show laneOf (k + 1) = .lane0 by
      simp [laneOf, show (k + 1) % 3 = 0 by omega]]; rfl

end Sys2Proof.Machine
end

