-- ==== Sys2Proof/Laws/Absorber.lean ====
section
/-! SUPPORT. What LANE and ABSORB can do: the accumulators they write and everything they leave unchanged (R67, R68). -/

namespace Sys2Proof.Machine

variable (cfg : Config)

/-- What LANE writes (R67). -/
@[simp] theorem lane_acc_same (op : Lane) (w0 w1 : Word) (b : Block) :
    (lane cfg op w0 w1 b).acc op = stepValue (laneConst cfg op) (b.acc op) w0 w1 := by
  simp [lane]

/-- LANE leaves the other accumulators (R67). -/
theorem lane_acc_other {op j : Lane} (w0 w1 : Word) (b : Block) (h : j ≠ op) :
    (lane cfg op w0 w1 b).acc j = b.acc j :=
  b.acc_setAcc_other _ h

@[simp] theorem lane_totalLength (op : Lane) (w0 w1 : Word) (b : Block) :
    (lane cfg op w0 w1 b).totalLength = b.totalLength := by simp [lane]

@[simp] theorem lane_fin (op : Lane) (w0 w1 : Word) (b : Block) : (lane cfg op w0 w1 b).fin = b.fin := by simp [lane]

@[simp] theorem lane_tail (op : Lane) (w0 w1 : Word) (b : Block) : (lane cfg op w0 w1 b).tail = b.tail := by simp [lane]

@[simp] theorem lane_fbuf (op : Lane) (w0 w1 : Word) (b : Block) : (lane cfg op w0 w1 b).fbuf = b.fbuf := by simp [lane]

@[simp] theorem laneSteps_zero (buf : List Byte) (o : Nat) (op : Lane) (b : Block) :
    laneSteps cfg buf 0 o op b = b := rfl

theorem laneSteps_succ (buf : List Byte) (k o : Nat) (op : Lane) (b : Block) :
    laneSteps cfg buf (k + 1) o op b =
      laneSteps cfg buf k (o + 16) op.next (lane cfg op (memRead buf o 8) (memRead buf (o + 8) 8) b) := rfl

@[simp] theorem laneSteps_totalLength (buf : List Byte) (k o : Nat) (op : Lane) (b : Block) :
    (laneSteps cfg buf k o op b).totalLength = b.totalLength := by
  induction k generalizing o op b with
  | zero => rfl
  | succ k ih => simp [laneSteps_succ, ih]

@[simp] theorem laneSteps_fin (buf : List Byte) (k o : Nat) (op : Lane) (b : Block) :
    (laneSteps cfg buf k o op b).fin = b.fin := by
  induction k generalizing o op b with
  | zero => rfl
  | succ k ih => simp [laneSteps_succ, ih]

@[simp] theorem laneSteps_tail (buf : List Byte) (k o : Nat) (op : Lane) (b : Block) :
    (laneSteps cfg buf k o op b).tail = b.tail := by
  induction k generalizing o op b with
  | zero => rfl
  | succ k ih => simp [laneSteps_succ, ih]

@[simp] theorem laneSteps_fbuf (buf : List Byte) (k o : Nat) (op : Lane) (b : Block) :
    (laneSteps cfg buf k o op b).fbuf = b.fbuf := by
  induction k generalizing o op b with
  | zero => rfl
  | succ k ih => simp [laneSteps_succ, ih]

/-- A buffer of `16 * k` bytes takes `k` steps (R68). -/
theorem stepCount_mul (k : Nat) : stepCount (16 * k) = k := by
  unfold stepCount; omega

@[simp] theorem absorb_totalLength (buf : List Byte) (b : Block) :
    (absorb cfg buf b).totalLength = b.totalLength + BitVec.ofNat 64 buf.length := by simp [absorb]

@[simp] theorem absorb_fin (buf : List Byte) (b : Block) : (absorb cfg buf b).fin = b.fin := by simp [absorb]

@[simp] theorem absorb_tail (buf : List Byte) (b : Block) : (absorb cfg buf b).tail = b.tail := by simp [absorb]

@[simp] theorem absorb_fbuf (buf : List Byte) (b : Block) : (absorb cfg buf b).fbuf = b.fbuf := by simp [absorb]

/-- `ABSORB(ε)` changes nothing (R68). -/
@[simp] theorem absorb_nil (b : Block) : absorb cfg [] b = b := by
  simp [absorb, stepCount, Block.addTotal, Block.setTotal]

end Sys2Proof.Machine
end

