-- ==== Sys2Proof/Laws/Stream.lean ====
section
/-! SUPPORT. What SS.INIT, SS.UPDATE and SS.FINAL can do (R73, R76, R81), one case lemma each. -/

namespace Sys2Proof.Machine

variable (cfg : Config)

/-- What SS.INIT leaves (R73): everything is written but `fbuf`. -/
theorem ssInit_eq (seed : Word) (b : Block) :
    ssInit cfg seed b =
      { acc0 := mixedSeed cfg seed, acc1 := cfg.laneInit (mixedSeed cfg seed),
        acc2 := cfg.laneInit (mixedSeed cfg seed), totalLength := 0, fin := false, tail := [], fbuf := b.fbuf } := rfl

@[simp] theorem ssInit_fin (seed : Word) (b : Block) : (ssInit cfg seed b).fin = false := rfl
@[simp] theorem ssInit_tail (seed : Word) (b : Block) : (ssInit cfg seed b).tail = [] := rfl
@[simp] theorem ssInit_fbuf (seed : Word) (b : Block) : (ssInit cfg seed b).fbuf = b.fbuf := rfl
@[simp] theorem ssInit_totalLength (seed : Word) (b : Block) : (ssInit cfg seed b).totalLength = 0 := rfl

/-- Everything SS.UPDATE can do (R76, R77). -/
theorem ssUpdate_cases (buf : List Byte) (b : Block) :
    (b.fin = true ∧ ssUpdate cfg buf b = .raised .alreadyFinalized) ∨
    (b.fin = false ∧ buf.length % 64 ≠ 0 ∧ ssUpdate cfg buf b = .outsideContract) ∨
    (b.fin = false ∧ buf.length % 64 = 0 ∧
      ssUpdate cfg buf b = .done ((absorb cfg ((b.tail ++ buf).take (updatePrefix (b.tail ++ buf).length)) b).setTail
        ((b.tail ++ buf).drop (updatePrefix (b.tail ++ buf).length)))) := by
  unfold ssUpdate
  cases b.fin with
  | true => simp
  | false =>
    rcases eq_or_ne (buf.length % 64) 0 with h | h
    · exact .inr (.inr ⟨rfl, h, by simp [h]⟩)
    · exact .inr (.inl ⟨rfl, h, by simp [h]⟩)

/-- Inside its contract SS.UPDATE runs, and it leaves `fin` and `fbuf` (R76). -/
theorem ssUpdate_runs {buf : List Byte} {b : Block} (hfin : b.fin = false) (h : buf.length % 64 = 0) :
    ∃ b', ssUpdate cfg buf b = .done b' ∧ b'.fin = false ∧ b'.fbuf = b.fbuf ∧
      b'.tail = (b.tail ++ buf).drop (updatePrefix (b.tail ++ buf).length) ∧
      b'.totalLength = b.totalLength + BitVec.ofNat 64 ((b.tail ++ buf).take (updatePrefix (b.tail ++ buf).length)).length := by
  rcases ssUpdate_cases cfg buf b with ⟨h', _⟩ | ⟨_, h', _⟩ | ⟨_, _, h'⟩
  · simp [hfin] at h'
  · exact absurd h h'
  · exact ⟨_, h', by simp [hfin], by simp, by simp, by simp⟩

@[simp] theorem fold_totalLength (b : Block) : (fold b).totalLength = b.totalLength := rfl
@[simp] theorem fold_fin (b : Block) : (fold b).fin = b.fin := rfl
@[simp] theorem fold_tail (b : Block) : (fold b).tail = b.tail := rfl
@[simp] theorem fold_fbuf (b : Block) : (fold b).fbuf = b.fbuf := rfl
@[simp] theorem fold_acc1 (b : Block) : (fold b).acc1 = b.acc1 := rfl
@[simp] theorem fold_acc2 (b : Block) : (fold b).acc2 = b.acc2 := rfl
@[simp] theorem fold_acc0 (b : Block) : (fold b).acc0 = b.acc0 ^^^ b.acc1 ^^^ b.acc2 := rfl

/-- What steps 3 to 7 leave: the phase is CLOSED, `T` has grown by the remainder, the buffers and lanes 1 and 2 are as
they were (R87, R93, R95). -/
theorem finishStream_frame (c last16 : List Byte) (b : Block) :
    (finishStream cfg c last16 b).1.fin = true ∧ (finishStream cfg c last16 b).1.tail = b.tail ∧
    (finishStream cfg c last16 b).1.fbuf = b.fbuf ∧ (finishStream cfg c last16 b).1.acc1 = b.acc1 ∧
    (finishStream cfg c last16 b).1.acc2 = b.acc2 ∧
    (finishStream cfg c last16 b).1.totalLength = b.totalLength + BitVec.ofNat 64 c.length := by
  unfold finishStream
  cases folds b.totalLength <;> simp

/-- Everything SS.FINAL can do (R81, R82). -/
theorem ssFinal_cases (buf : List Byte) (b : Block) :
    (b.fin = true ∧ ssFinal cfg buf b = .raised .alreadyFinalized) ∨
    (b.fin = false ∧ 64 ≤ buf.length ∧ ssFinal cfg buf b = .outsideContract) ∨
    (b.fin = false ∧ buf.length < 64 ∧
      ssFinal cfg buf b = .done (finishStream cfg
        ((b.tail ++ buf).drop (peelLength b.totalLength.toNat (b.tail ++ buf).length))
        ((b.tail ++ buf).drop ((b.tail ++ buf).length - 16))
        (absorb cfg ((b.tail ++ buf).take (peelLength b.totalLength.toNat (b.tail ++ buf).length)) (b.setTail [])))) := by
  unfold ssFinal
  cases b.fin with
  | true => simp
  | false =>
    rcases Nat.lt_or_ge buf.length 64 with h | h
    · exact .inr (.inr ⟨rfl, h, by simp [h]⟩)
    · exact .inr (.inl ⟨rfl, h, by simp [h]⟩)

end Sys2Proof.Machine
end

