-- ==== Sys2Proof/Laws/Commands.lean ====
section
/-! SUPPORT. What forwarding, opening, closing and each command can do (R97 to R101), one case lemma each. -/

namespace Sys2Proof.Machine

variable (cfg : Config)

/-- `exec` is `runCommand` with the spec's parameters. -/
theorem exec_eq_runCommand (i : Instr) (s : State) : exec i s = runCommand specConfig i s := by
  cases i <;> rfl

theorem wholeBlocks_le (len : Nat) : wholeBlocks len ≤ len := by unfold wholeBlocks; omega

theorem wholeBlocks_mod (len : Nat) : wholeBlocks len % 64 = 0 := by unfold wholeBlocks; omega

theorem lt_wholeBlocks_add (len : Nat) : len - wholeBlocks len < 64 := by unfold wholeBlocks; omega

/-- What the Hasher stage hands to SS.UPDATE keeps its contract (R101). -/
theorem take_wholeBlocks_mod (bytes : List Byte) : (bytes.take (wholeBlocks bytes.length)).length % 64 = 0 := by
  rw [List.length_take, Nat.min_eq_left (wholeBlocks_le _)]
  exact wholeBlocks_mod _

/-- Everything forwarding can do in phase OPEN: nothing when there is no whole block, otherwise SS.UPDATE's result (R98,
R101). It never leaves the contract. -/
theorem forwardBlocks_cases (bytes : List Byte) (b : Block) (hfin : b.fin = false) :
    (bytes.length < 64 ∧ forwardBlocks cfg bytes b = .done b) ∨
    (64 ≤ bytes.length ∧ ∃ b', ssUpdate cfg (bytes.take (wholeBlocks bytes.length)) b = .done b' ∧
      forwardBlocks cfg bytes b = .done b' ∧ b'.fin = false ∧ b'.fbuf = b.fbuf) := by
  unfold forwardBlocks
  rcases Nat.lt_or_ge bytes.length 64 with h | h
  · exact .inl ⟨h, by simp [wholeBlocks, Nat.div_eq_of_lt h]⟩
  · obtain ⟨b', hb, hf, hu, _⟩ := ssUpdate_runs cfg (b := b) hfin (take_wholeBlocks_mod bytes)
    have hpos : 0 < wholeBlocks bytes.length := by unfold wholeBlocks; omega
    exact .inr ⟨h, b', hb, by simp [hpos, hb], hf, hu⟩

/-- Opening a stream writes the whole block, whatever it held (R97). -/
theorem openStream_eq (seed : Word) (b : Block) :
    openStream cfg seed b =
      { acc0 := mixedSeed cfg seed, acc1 := cfg.laneInit (mixedSeed cfg seed),
        acc2 := cfg.laneInit (mixedSeed cfg seed), totalLength := 0, fin := false, tail := [], fbuf := [] } := rfl

/-- A command in phase CLOSED that has a `fin` test raises (R111). -/
theorem updateCommand_closed (data : List Byte) {s : State} (h : s.block.fin = true) :
    updateCommand cfg data s = .next (s.respond (.err .alreadyFinalized)) := by
  simp [updateCommand, h]

theorem finalCommand_closed (data : List Byte) {s : State} (h : s.block.fin = true) :
    finalCommand cfg data s = .next (s.respond (.err .alreadyFinalized)) := by
  simp [finalCommand, h]

/-- What UPDATE does in phase OPEN, given what forwarding did (R98). -/
theorem updateCommand_of_forward {data : List Byte} {s : State} {b : Block} (h : s.block.fin = false)
    (hf : forwardBlocks cfg (s.block.fbuf ++ data) s.block = .done b) :
    updateCommand cfg data s = .next ((s.setBlock
      (b.setFbuf ((s.block.fbuf ++ data).drop (wholeBlocks (s.block.fbuf ++ data).length)))).respond .ok) := by
  simp [updateCommand, h, hf]

/-- What FINAL does in phase OPEN, given what closing the stream did (R99). -/
theorem finalCommand_of_close {data : List Byte} {s : State} {r : Block × Word} (h : s.block.fin = false)
    (hc : closeStream cfg (s.block.fbuf ++ data) s.block = .done r) :
    finalCommand cfg data s = .next ((s.setBlock r.1).respond (.digest r.2)) := by
  simp [finalCommand, h, hc]

/-- HASH is FINAL from the opened stream (R100). -/
theorem hashCommand_eq (seed : Word) (data : List Byte) (s : State) :
    hashCommand cfg seed data s = finalCommand cfg data (s.setBlock (openStream cfg seed s.block)) := rfl

end Sys2Proof.Machine
end

