-- ==== Sys2Proof/Laws/Operands.lean ====
section
/-! SUPPORT. Laws of byte sequences: little-endian values and fields, slices, and what one read gives. -/

namespace Sys2Proof.Machine

@[simp] theorem leValue_nil : leValue [] = 0 := rfl

@[simp] theorem leValue_cons (b : Byte) (bs : List Byte) : leValue (b :: bs) = b.toNat + 256 * leValue bs := rfl

theorem leValue_append (xs ys : List Byte) : leValue (xs ++ ys) = leValue xs + 256 ^ xs.length * leValue ys := by
  induction xs with
  | nil => simp
  | cons x xs ih => simp [ih, pow_succ]; ring

theorem leValue_lt (bs : List Byte) : leValue bs < 256 ^ bs.length := by
  induction bs with
  | nil => simp
  | cons b bs ih =>
    have hb : b.toNat < 256 := b.isLt
    simp only [leValue_cons, List.length_cons, pow_succ]
    omega

@[simp] theorem leBytes_length (n v : Nat) : (leBytes n v).length = n := by
  induction n generalizing v with
  | zero => rfl
  | succ n ih => simp [leBytes, ih]

/-- Reading back a field gives its value, as far as the field holds it. -/
theorem leValue_leBytes (n v : Nat) : leValue (leBytes n v) = v % 256 ^ n := by
  induction n generalizing v with
  | zero => simp [leBytes, Nat.mod_one]
  | succ n ih =>
    rw [leBytes, leValue_cons, ih, BitVec.toNat_ofNat, pow_succ' 256 n, Nat.mod_mul]

/-- A byte sequence is the field of its value. -/
theorem leBytes_leValue (bs : List Byte) : leBytes bs.length (leValue bs) = bs := by
  induction bs with
  | nil => rfl
  | cons b bs ih =>
    have hb : b.toNat < 256 := b.isLt
    have hdiv : (b.toNat + 256 * leValue bs) / 256 = leValue bs := by omega
    have hmod : BitVec.ofNat 8 (b.toNat + 256 * leValue bs) = b := by
      apply BitVec.eq_of_toNat_eq
      simp only [BitVec.toNat_ofNat]
      omega
    simp only [List.length_cons, leBytes, leValue_cons, hdiv, ih, hmod]

theorem slice_length (s : List Byte) (i j : Nat) : (slice s i j).length = min (j - i) (s.length - i) := by
  simp [slice]

theorem slice_append_left (s t : List Byte) {i j : Nat} (h : j ≤ s.length) : slice (s ++ t) i j = slice s i j := by
  unfold slice
  rcases Nat.lt_or_ge i j with hij | hij
  · rw [List.drop_append_of_le_length (by omega), List.take_append_of_le_length (by simp; omega)]
  · simp [Nat.sub_eq_zero_of_le hij]

/-- What one read gives: the little-endian value of the bytes read, zero-extended (R33). -/
theorem memRead_toNat (s : List Byte) (off : Nat) {n : Nat} (hn : n ≤ 8) :
    (memRead s off n).toNat = leValue (slice s off (off + n)) := by
  have hlen : (slice s off (off + n)).length ≤ 8 := by rw [slice_length]; omega
  have hlt := leValue_lt (slice s off (off + n))
  have hpow : 256 ^ (slice s off (off + n)).length ≤ 256 ^ 8 := Nat.pow_le_pow_right (by norm_num) hlen
  rw [memRead, BitVec.toNat_ofNat, Nat.mod_eq_of_lt]
  exact lt_of_lt_of_le hlt (hpow.trans (by norm_num))

/-- A read depends only on the bytes it reads. -/
theorem memRead_append_left (s t : List Byte) {off n : Nat} (h : off + n ≤ s.length) :
    memRead (s ++ t) off n = memRead s off n := by
  simp only [memRead, slice_append_left s t h]

/-- Reading past a prefix is reading the rest at the offset less the prefix. -/
theorem memRead_append_right (s t : List Byte) {off : Nat} (n : Nat) (h : s.length ≤ off) :
    memRead (s ++ t) off n = memRead t (off - s.length) n := by
  simp only [memRead, slice, List.drop_append, List.drop_eq_nil_of_le h, List.nil_append]
  congr 3
  omega

/-- Reading after a drop is reading further on. -/
theorem memRead_drop (s : List Byte) (k off n : Nat) : memRead (s.drop k) off n = memRead s (k + off) n := by
  simp only [memRead, slice, List.drop_drop]
  congr 3
  omega

@[simp] theorem ramp_length (n : Nat) : (ramp n).length = n := by simp [ramp]

end Sys2Proof.Machine
end

