-- ==== Sys2Proof/Laws/Decode.lean ====
section
/-! SUPPORT. What the decoder's formats can answer (R47 to R51), and the lengths of encodings. -/

namespace Sys2Proof

open Sys2Proof.Machine

/-- A command can be sent when its payload is within `MAX_PAYLOAD` and its length fits the `len` field (R32, R47). -/
theorem Instr.wellFormed_iff (maxPayload : Nat) (i : Instr) :
    i.wellFormed maxPayload = true ↔ i.payload.length ≤ maxPayload ∧ i.payload.length < 2 ^ 64 := by
  simp [Instr.wellFormed, payloadFits]

/-- Everything reading a payload can answer (R49, R51). -/
theorem decodePayload_cases (maxPayload : Nat) (cmd : List Byte) (header len : Nat) (build : List Byte → Instr) :
    (maxPayload < len ∧ decodePayload maxPayload cmd header len build = .oversize len) ∨
    (len ≤ maxPayload ∧ cmd.length < header + len ∧ decodePayload maxPayload cmd header len build = .truncated) ∨
    (len ≤ maxPayload ∧ header + len ≤ cmd.length ∧ decodePayload maxPayload cmd header len build =
      .command (build (slice cmd header (header + len))) (cmd.drop (header + len))) := by
  unfold decodePayload
  rcases Nat.lt_or_ge maxPayload len with h | h
  · exact .inl ⟨h, by simp [h]⟩
  · rcases Nat.lt_or_ge cmd.length (header + len) with h' | h'
    · exact .inr (.inl ⟨h, h', by simp [h', Nat.not_lt.mpr h]⟩)
    · exact .inr (.inr ⟨h, h', by simp [Nat.not_lt.mpr h', Nat.not_lt.mpr h]⟩)

theorem decodeCommand_new (maxPayload : Nat) (rest : List Byte) :
    decodeCommand maxPayload (opcodeNew :: rest) = decodeFormatN (opcodeNew :: rest) := by
  simp [decodeCommand]

theorem decodeCommand_update (maxPayload : Nat) (rest : List Byte) :
    decodeCommand maxPayload (opcodeUpdate :: rest) = decodeFormatB maxPayload (opcodeUpdate :: rest) .update := by
  simp [decodeCommand, opcodeNew, opcodeUpdate]

theorem decodeCommand_final (maxPayload : Nat) (rest : List Byte) :
    decodeCommand maxPayload (opcodeFinal :: rest) = decodeFormatB maxPayload (opcodeFinal :: rest) .final := by
  simp [decodeCommand, opcodeNew, opcodeUpdate, opcodeFinal]

theorem decodeCommand_hash (maxPayload : Nat) (rest : List Byte) :
    decodeCommand maxPayload (opcodeHash :: rest) = decodeFormatH maxPayload (opcodeHash :: rest) := by
  simp [decodeCommand, opcodeNew, opcodeUpdate, opcodeFinal, opcodeHash]

@[simp] theorem encodeField_length (v : Word) : (encodeField v).length = 8 := by simp [encodeField]

@[simp] theorem encodeLength_length (data : List Byte) : (encodeLength data).length = 8 := by simp [encodeLength]

end Sys2Proof
end

