-- ==== Sys2Proof/Laws/PerInstr.lean ====
section
/-! SUPPORT. A family of statements made per command of `Instr`. -/

namespace Sys2Proof.Laws

open Sys2Proof.Machine

/-- The opcode byte of a command (R48). -/
def opcodeOf : Instr → Byte
  | .new _ => 0x01
  | .update _ => 0x02
  | .final _ => 0x03
  | .hash _ _ => 0x04

/-- The bytes of a command before its payload: formats N and B have 9, format H has 17 (R47). -/
def headerLength : Instr → Nat
  | .new _ => 9
  | .update _ => 9
  | .final _ => 9
  | .hash _ _ => 17

end Sys2Proof.Laws

/-- The encoding begins with the command's opcode byte, ends with its payload and has the length of its format (R47,
R48, R50). -/
def Sys2Proof.Laws.EncodedForm.Statement (i : Sys2Proof.Instr) : Prop :=
  ∃ fields, Sys2Proof.encode i = Sys2Proof.Laws.opcodeOf i :: (fields ++ i.payload) ∧
    (Sys2Proof.encode i).length = Sys2Proof.Laws.headerLength i + i.payload.length

theorem Sys2Proof.Laws.EncodedForm.new (seed : Sys2Proof.Word) :
    Sys2Proof.Laws.EncodedForm.Statement (.new seed) :=
  ⟨Sys2Proof.encodeField seed, by simp [Sys2Proof.encode, Sys2Proof.Laws.opcodeOf, Sys2Proof.opcodeNew,
    Sys2Proof.Instr.payload], by simp [Sys2Proof.encode, Sys2Proof.Laws.headerLength, Sys2Proof.Instr.payload]⟩

theorem Sys2Proof.Laws.EncodedForm.update (data : List Sys2Proof.Byte) :
    Sys2Proof.Laws.EncodedForm.Statement (.update data) :=
  ⟨Sys2Proof.encodeLength data, rfl, by
    simp [Sys2Proof.encode, Sys2Proof.Laws.headerLength, Sys2Proof.Instr.payload]; omega⟩

theorem Sys2Proof.Laws.EncodedForm.final (data : List Sys2Proof.Byte) :
    Sys2Proof.Laws.EncodedForm.Statement (.final data) :=
  ⟨Sys2Proof.encodeLength data, rfl, by
    simp [Sys2Proof.encode, Sys2Proof.Laws.headerLength, Sys2Proof.Instr.payload]; omega⟩

theorem Sys2Proof.Laws.EncodedForm.hash (seed : Sys2Proof.Word) (data : List Sys2Proof.Byte) :
    Sys2Proof.Laws.EncodedForm.Statement (.hash seed data) :=
  ⟨Sys2Proof.encodeField seed ++ Sys2Proof.encodeLength data, by
    simp [Sys2Proof.encode, Sys2Proof.Laws.opcodeOf, Sys2Proof.opcodeHash, Sys2Proof.Instr.payload], by
    simp [Sys2Proof.encode, Sys2Proof.Laws.headerLength, Sys2Proof.Instr.payload]; omega⟩
end

