-- ==== Sys2Proof/Laws/Step.lean ====
section
/-! SUPPORT. What a step can do, said once. -/

namespace Sys2Proof.Machine

/-- Everything a step can do: take a reset, hold, run a decoded command, or refuse bytes by name. -/
theorem step_cases (s : State) :
    (s.resetRequest = true ∧ step s = .next (takeReset s)) ∨
    (s.resetRequest = false ∧ fetch s = .endOfStream ∧ step s = .next s) ∨
    (s.resetRequest = false ∧ ∃ i rest, fetch s = .command i rest ∧ step s = exec i (s.setCommands rest)) ∨
    (s.resetRequest = false ∧ ∃ op, fetch s = .unknownOpcode op ∧ step s = .refused (.unknownOpcode op)) ∨
    (s.resetRequest = false ∧ fetch s = .truncated ∧ step s = .refused .truncatedCommand) ∨
    (s.resetRequest = false ∧ ∃ len, fetch s = .oversize len ∧ step s = .refused (.payloadTooLong len)) := by
  cases hr : s.resetRequest with
  | true => exact .inl ⟨rfl, by simp [step, hr]⟩
  | false =>
    right
    cases hf : fetch s with
    | endOfStream => exact .inl ⟨rfl, rfl, by simp [step, hr, hf]⟩
    | command i rest => exact .inr (.inl ⟨rfl, i, rest, rfl, by simp [step, hr, hf]⟩)
    | unknownOpcode op => exact .inr (.inr (.inl ⟨rfl, op, rfl, by simp [step, hr, hf]⟩))
    | truncated => exact .inr (.inr (.inr (.inl ⟨rfl, rfl, by simp [step, hr, hf]⟩)))
    | oversize len => exact .inr (.inr (.inr (.inr ⟨rfl, len, rfl, by simp [step, hr, hf]⟩)))

end Sys2Proof.Machine
end

