-- ==== Sys2Proof/Tests/Slice0.lean ====
section
/-! SUPPORT. Tests against the spec's own numbers (95_test_vectors.md and the examples of the rules), the smoke tests of
`WellFormed`, and for each statement with hypotheses a concrete case that meets them. -/

namespace Sys2Proof.Tests

open Sys2Proof.Machine

/-! WellFormed refuses each ill-formed term -/

/-- A payload longer than `MAX_PAYLOAD`. -/
theorem test_wellFormed_refuses_long_payload : (Instr.update [1, 2, 3]).wellFormed 2 = false := by decide

/-- A payload whose length the `len` field cannot hold, whatever `MAX_PAYLOAD`. -/
theorem test_wellFormed_refuses_uncountable_payload :
    (Instr.final (List.replicate (2 ^ 64) 0)).wellFormed (2 ^ 65) = false := by
  simp only [Instr.wellFormed, payloadFits, Instr.payload, List.length_replicate]
  decide

theorem test_wellFormed_accepts : (Instr.hash 1 [1, 2, 3]).wellFormed 3 = true := by decide

/-! Decoding: words written out from R47 to R49 -/

/-- `NEW 2` (R97's example). -/
theorem test_decode_new : decodeCommand 100 [0x01, 0x02, 0x00, 0x00, 0x00, 0x00, 0x00, 0x00, 0x00, 0xff] =
    .command (.new 2) [0xff] := by decide

/-- `NEW 0xdeadbeef` (program P6): the seed is little-endian. -/
theorem test_decode_new_byte_order : decodeCommand 100 [0x01, 0xef, 0xbe, 0xad, 0xde, 0x00, 0x00, 0x00, 0x00] =
    .command (.new 0xdeadbeef) [] := by decide

/-- `UPDATE "x"` (program P4). -/
theorem test_decode_update : decodeCommand 100 [0x02, 0x01, 0x00, 0x00, 0x00, 0x00, 0x00, 0x00, 0x00, 0x78] =
    .command (.update [0x78]) [] := by decide

/-- `FINAL "abc"` (R99's example), then the next command's first byte. -/
theorem test_decode_final :
    decodeCommand 100 [0x03, 0x03, 0x00, 0x00, 0x00, 0x00, 0x00, 0x00, 0x00, 0x61, 0x62, 0x63, 0x01] =
    .command (.final [0x61, 0x62, 0x63]) [0x01] := by decide

/-- `HASH "a", 1` (vector V2): the seed comes before the length. -/
theorem test_decode_hash :
    decodeCommand 100
      [0x04, 0x01, 0x00, 0x00, 0x00, 0x00, 0x00, 0x00, 0x00, 0x01, 0x00, 0x00, 0x00, 0x00, 0x00, 0x00, 0x00, 0x61] =
    .command (.hash 1 [0x61]) [] := by decide

/-- R51: opcode bytes 0 and 5, a command cut short, a length above `MAX_PAYLOAD`. -/
theorem test_decode_refuses :
    decodeCommand 100 [0x00, 0x01] = .unknownOpcode 0x00 ∧ decodeCommand 100 [0x05] = .unknownOpcode 0x05 ∧
    decodeCommand 100 [0x01, 0x02] = .truncated ∧
    decodeCommand 100 [0x02, 0x02, 0x00, 0x00, 0x00, 0x00, 0x00, 0x00, 0x00, 0x78] = .truncated ∧
    decodeCommand 1 [0x02, 0x02, 0x00, 0x00, 0x00, 0x00, 0x00, 0x00, 0x00, 0x78, 0x79] = .oversize 2 := by decide

/-- The words of `spec/opcode_table.json`. -/
theorem test_decodeTableWord :
    decodeTableWord 8 0x01 = some (.new 0) ∧ decodeTableWord 8 0x02 = some (.update []) ∧
    decodeTableWord 8 0x03 = some (.final []) ∧ decodeTableWord 8 0x04 = some (.hash 0 []) ∧
    decodeTableWord 8 0x05 = none ∧ decodeTableWord 72 0x0201 = some (.new 2) ∧
    decodeTableWord 80 0x780000000000000001_02 = some (.update [0x78]) := by decide

/-- The word's command, and nothing but it, is what the next step consumes. -/
theorem test_fetchWord :
    fetch (State.reset.withFetchWord 8 0x01) = .command (.new 0) [] ∧
    fetch (State.reset.withFetchWord 8 0x04) = .command (.hash 0 []) [] := by decide

/-! Small states -/

/-- A block in phase OPEN that has absorbed nothing, with all accumulators `m` and `bytes` buffered. -/
def fresh (m : Word) (bytes : List Byte) : Block where
  acc0 := m
  acc1 := m
  acc2 := m
  totalLength := 0
  fin := false
  tail := []
  fbuf := bytes

/-- A machine with a given block and empty channels. -/
def machine (b : Block) : State := { State.reset with block := b }

/-- The response bytes a command adds to empty channels, empty where it does not complete. -/
def answer (i : Instr) (b : Block) : List Byte :=
  match exec i (machine b) with
  | .next t => t.responses
  | .fault _ => []
  | .refused _ => []

/-- The block a command leaves, the reset block where it does not complete. -/
def after (i : Instr) (b : Block) : Block :=
  match exec i (machine b) with
  | .next t => t.block
  | .fault _ => Block.reset
  | .refused _ => Block.reset

/-! One step of each command, against the spec's numbers -/

/-- `NEW 2` (R97's example). -/
theorem test_new : after (.new 2) Block.reset = fresh 0x51fecf31f98f3b6a [] ∧ answer (.new 2) Block.reset = [0x00] := by
  decide

/-- NEW in phase OPEN discards the stream (program P5's seed 7). -/
theorem test_new_discards : after (.new 7) (fresh 1 [9]) = fresh 0xaeec5559c50a6f2c [] := by decide

/-- `UPDATE ramp(100)` after `NEW 0` (R98's example). -/
theorem test_update_forwards :
    after (.update (ramp 100)) (fresh 0x1ff5c2923a788d2c []) =
      { acc0 := 0x60cbf30c23c498f7, acc1 := 0xfa2817ed92875ae6, acc2 := 0x2b05c90025648da4, totalLength := 48,
        fin := false, tail := (ramp 64).drop 48, fbuf := (ramp 100).drop 64 } := by decide +kernel

/-- `UPDATE` after reset (program P4, command 1). -/
theorem test_update_closed : answer (.update [0x78]) Block.reset = [0x81] := by decide

/-- `FINAL "abc"` after `NEW 2` (vector V3). -/
theorem test_final_short :
    answer (.final [0x61, 0x62, 0x63]) (fresh 0x51fecf31f98f3b6a []) =
      [0x01, 0x53, 0x51, 0x91, 0xb2, 0xe4, 0x92, 0xdd, 0x32] := by decide +kernel

/-- `FINAL` of `ramp(130)` after two UPDATEs (program P3, command 4): a resumed round, no peel, the fold, one post-fold
step. -/
theorem test_final_folded :
    answer (.final [])
      { acc0 := 0xdd46c4ba564ef6cb, acc1 := 0x143ff3dd677f9a9f, acc2 := 0x2b8e0aa5be7467cc, totalLength := 112,
        fin := false, tail := (ramp 128).drop 112, fbuf := [0x80, 0x81] } =
      [0x01, 0xca, 0xe2, 0x63, 0x3d, 0x0e, 0x60, 0xa7, 0x6e] := by decide +kernel

/-- `HASH "abcdefghijklmnopqrstuvwxyz", 4` (vector V5, the long path). -/
theorem test_hash_long :
    answer (.hash 4 ((List.range 26).map (fun i => BitVec.ofNat 8 (97 + i)))) Block.reset =
      [0x01, 0x40, 0x5f, 0x7f, 0x1d, 0xb6, 0xaf, 0x43, 0x7a] := by decide +kernel

/-- `HASH ramp(200), 0` (95_test_vectors.md section 3.5: forwarding, a peel of 16 and the fold). -/
theorem test_hash_peeled :
    answer (.hash 0 (ramp 200)) (fresh 5 [1, 2]) = 0x01 :: leBytes 8 0xb96493db7846fe8c := by decide +kernel

/-- The first command after reset, fetched and run by a step. -/
theorem test_step_runs_first_command :
    (match step (State.reset.withFetchWord 8 0x01) with
      | .next t => decide (t.block = fresh 0x1ff5c2923a788d2c [] ∧ t.commands = [] ∧ t.responses = [0x00])
      | .fault _ => false
      | .refused _ => false) = true := by decide

/-! Internal operations, against 95_test_vectors.md -/

/-- Section 3.1. -/
theorem test_mix : mix 0x0123456789abcdef 0xfedcba9876543210 = 0x2317228f48165bb2 ∧
    mix 0x8ebc6af09c88c6e3 0x589965cc75374cc3 = 0x02c45fcca5b24b2a := by decide

/-- Section 3.2: an ABSORB that starts at `T = 32` steps lane 2. -/
theorem test_absorb_resumes :
    absorb specConfig (ramp 16) { fresh 0x1ff5c2923a788d2c [] with totalLength := 32 } =
      { fresh 0x1ff5c2923a788d2c [] with acc2 := 0x937578c06d6a2d24, totalLength := 48 } := by decide +kernel

/-- Section 3.5, the medium path's pair for `r = 16` and `r = 9`. -/
theorem test_medium_pair : mediumPair (ramp 16) = (0x030201000b0a0908, 0x0f0e0d0c07060504) ∧
    mediumPair (ramp 9) = (0x0302010007060504, 0x0807060504030201) := by decide +kernel

/-- R103's example. -/
theorem test_render : String.ofList (renderDigest 0x0409638ee2bde459) = "0409638ee2bde459" := by decide +kernel

/-! Each statement's hypotheses are met -/

/-- AbsorbStepsRoundRobinFromT's example: a configuration and a block. -/
theorem witness_absorb_example :
    specConfig.p1 = 0xe7037ed1a0b428db ∧ specConfig.p2 = 0x8ebc6af09c88c6e3 ∧ specConfig.p3 = 0x589965cc75374cc3 ∧
    (fresh 0x1ff5c2923a788d2c []).acc0 = 0x1ff5c2923a788d2c ∧ (fresh 0x1ff5c2923a788d2c []).acc1 = 0x1ff5c2923a788d2c ∧
    (fresh 0x1ff5c2923a788d2c []).acc2 = 0x1ff5c2923a788d2c ∧ (fresh 0x1ff5c2923a788d2c []).totalLength = 0 := by decide

/-- LaneWritesItsAccumulatorOnly: each zero operand, and the example. -/
theorem witness_lane :
    specConfig.p2 = laneConst specConfig .lane1 ∧ (fresh 3 []).acc .lane2 = 3 ∧
    specConfig.p1 = 0xe7037ed1a0b428db ∧ (fresh 0x1ff5c2923a788d2c []).acc0 = 0x1ff5c2923a788d2c := by decide

/-- MemReadIsLittleEndian: each width at the last place it fits. -/
theorem witness_memRead : (7 : Nat) + 1 ≤ (ramp 8).length ∧ 4 + 4 ≤ (ramp 8).length ∧ 0 + 8 ≤ (ramp 8).length := by decide

/-- AbsorbStepsRoundRobinFromT, AbsorbComposes and the first clause of AbsorptionResumesAtTheLaneOfT: whole steps, and a
count just below the wrap. -/
theorem witness_absorb : (ramp 48).length % 16 = 0 ∧ (ramp 16).length % 16 = 0 ∧
    ({ fresh 1 [] with totalLength := 18446744073709551536 } : Block).totalLength.toNat % 16 = 0 ∧
    ({ fresh 1 [] with totalLength := 18446744073709551536 } : Block).totalLength.toNat + (ramp 48).length +
      (ramp 16).length < 2 ^ 64 := by decide

/-- AbsorptionResumesAtTheLaneOfT, second clause: a block that has absorbed nothing, and whole steps divided as in
95_test_vectors.md section 3.2, with an empty ABSORB among them. -/
theorem witness_absorb_divided : (fresh 1 []).totalLength = 0 ∧
    (∀ buf ∈ [slice (ramp 96) 0 16, [], slice (ramp 96) 16 64, slice (ramp 96) 64 96], buf.length % 16 = 0) ∧
    [slice (ramp 96) 0 16, [], slice (ramp 96) 16 64, slice (ramp 96) 64 96].flatten.length < 2 ^ 64 := by decide +kernel

/-- SsInitMixesTheSeed and DigestIsTheOneShotFormOffTheListedLengths: a configuration with equal lanes, and lengths at the
ends of the clauses. -/
theorem witness_equal_lanes : (∀ m, specConfig.laneInit m = m) ∧ specConfig.p0 = 0xa0761d6478bd642f ∧
    specConfig.p1 = 0xe7037ed1a0b428db ∧ (ramp 127).length ≤ 127 ∧
    ¬ ((ramp 145).length % 192 = 0 ∨ 128 ≤ (ramp 145).length % 192 ∧ (ramp 145).length % 192 ≤ 144) :=
  ⟨fun _ => rfl, by decide, by decide, by decide +kernel, by decide +kernel⟩

/-- SsUpdateReservesTheLastStep and SsUpdateOutsideItsContract: an open and a closed block, both tails, lengths inside and
outside the contract. -/
theorem witness_ssUpdate : (ramp 64).length % 64 = 0 ∧ 0 < (ramp 64).length ∧ (ramp 65).length % 64 ≠ 0 ∧
    (fresh 1 []).fin = false ∧ (fresh 1 []).tail = [] ∧ Block.reset.fin = true ∧
    ({ fresh 1 [] with tail := ramp 16 } : Block).tail.length = 16 := by decide

/-- FinalOfASmallMessage: each path at both ends of its range, split between `fbuf` and the payload. -/
theorem witness_small_final : (fresh 1 []).fin = false ∧ (fresh 1 []).tail = [] ∧ (fresh 1 []).totalLength = 0 ∧
    ((fresh 1 []).fbuf ++ []).length = 0 ∧ ((fresh 1 [7]).fbuf ++ []).length = 1 ∧
    ((fresh 1 [7]).fbuf ++ [8, 9]).length = 3 ∧ ((fresh 1 [7]).fbuf ++ [8, 9, 10]).length = 4 ∧
    ((fresh 1 (ramp 15)).fbuf ++ [8]).length = 16 := by decide

/-- UpdateForwardsWholeBlocks, UpdateSplitsTheMessage, EveryByteIsCounted: an open legal block, payloads on both sides of a
block. -/
theorem witness_update : (fresh 0x1ff5c2923a788d2c [1]).fin = false ∧
    (fresh 0x1ff5c2923a788d2c [1]).Legal specConfig ∧
    ((fresh 0x1ff5c2923a788d2c [1]).fbuf ++ ramp 62).length / 64 = 0 ∧
    0 < ((fresh 0x1ff5c2923a788d2c [1]).fbuf ++ ramp 63).length / 64 := by
  refine ⟨rfl, ⟨by decide, .inl rfl, by decide, fun _ _ => ⟨rfl, 0, by decide, by decide, by decide⟩, by decide⟩, ?_, ?_⟩ <;>
    decide

/-- A closed block, for the statements about phase CLOSED. -/
theorem witness_closed : (machine Block.reset).block.fin = true ∧
    (∀ i ∈ [Instr.update [1], Instr.final []], (∃ data, i = .update data) ∨ (∃ data, i = .final data)) := by
  refine ⟨rfl, ?_⟩
  intro i hi
  simp only [List.mem_cons, List.not_mem_nil, or_false] at hi
  rcases hi with rfl | rfl
  · exact .inl ⟨_, rfl⟩
  · exact .inr ⟨_, rfl⟩

/-- AlreadyFinalizedIsTheOnlyError, second clause: an error response does occur. -/
theorem witness_error : exec (.final []) (machine Block.reset) = .next { machine Block.reset with responses := [0x81] } :=
  rfl

/-- FinalClosesTheStream and FinalSucceedsOncePerStream: an open block with no whole block, and one with a whole block. -/
theorem witness_final : (fresh 1 []).fin = false ∧ 64 * (((fresh 1 []).fbuf ++ ramp 63).length / 64) = 0 ∧
    0 < 64 * (((fresh 1 []).fbuf ++ ramp 64).length / 64) := by decide

/-- HashAnswersTheDigestOfItsPayload and DigestIgnoresChunking: payloads and chunks below `2^64` bytes, an empty chunk
among them. -/
theorem witness_lengths : (ramp 200).length < 2 ^ 64 ∧
    ([ramp 70, [], ramp 1].flatten ++ ramp 3).length < 2 ^ 64 := by decide +kernel

/-- ControlDependsOnLengthsOnly: commands and blocks that differ in bytes, seed and accumulators only. -/
theorem witness_same_shape : SameForm (.hash 1 [1, 2]) (.hash 9 [3, 4]) ∧ SameShape (fresh 1 [1]) (fresh 2 [2]) ∧
    runCommand specConfig (.new 1) (machine (fresh 1 [1])) =
      .next (((machine (fresh 1 [1])).setBlock (openStream specConfig 1 (fresh 1 [1]))).respond .ok) :=
  ⟨rfl, ⟨rfl, rfl, rfl, rfl⟩, rfl⟩

/-- UpdateExtendsTheMessage and FinalAnswersTheDigestOfTheMessage: the block that holds a message, and lengths below
`2^64`. -/
theorem witness_stream : (machine (streamBlock specConfig 7 (ramp 70))).block = streamBlock specConfig 7 (ramp 70) ∧
    (ramp 70).length + (ramp 60).length < 2 ^ 64 := ⟨rfl, by decide⟩

/-- RenderingIsSixteenHexDigits and ResponsesReadInOneWay: equal renderings, equal streams. -/
theorem witness_equal_streams : renderDigest 5 = renderDigest 5 ∧ encodeResponse .ok ++ [1] = encodeResponse .ok ++ [1] :=
  ⟨rfl, rfl⟩

/-- DecodeEncodeRoundTrip, EncodeDecodeRoundTrip, UndecodableBytesAreRefused: a command that can be sent, one that decodes,
opcode bytes at both ends of the unused range, prefixes, and a payload above `MAX_PAYLOAD`. -/
theorem witness_encoding : (Instr.update [1, 2]).wellFormed 2 = true ∧
    decodeCommand 2 (encode (.update [1, 2]) ++ [7]) = .command (.update [1, 2]) [7] ∧
    (5 : Byte).toNat = 5 ∧ 5 ≤ (255 : Byte).toNat ∧ 0 < 1 ∧ 10 < (encode (.update [1, 2])).length ∧
    1 < [1, 2].length ∧ [1, 2].length < 2 ^ 64 := by decide

/-- AssemblerDefaults: a place inside a ramp, a text up to the last ASCII character, a text with the first character
outside ASCII. -/
theorem witness_assembler : 299 < 300 ∧ (∀ c ∈ (String.ofList ['a', '\x7f']).toList, c.toNat < 128) ∧
    (∃ c ∈ (String.ofList ['a', '\u0080']).toList, 128 ≤ c.toNat) := by
  simp

/-- StepRunsTheDecodedCommand, OneResponsePerCommand and CommandStreamRunsInOrder: a channel with two commands and a byte
after them, and a step that goes on. -/
theorem witness_channel :
    (∀ i ∈ [Instr.new 0, .update [1]], i.wellFormed specConfig.maxPayload = true) ∧
    decodeCommand specConfig.maxPayload ([Instr.new 0, .update [1]].flatMap encode ++ [7]) =
      .command (.new 0) ([Instr.update [1]].flatMap encode ++ [7]) ∧
    (machine Block.reset).resetRequest = false := by decide

/-- StepRefusesUndecodableBytes and IdleBlockHoldsItsState: an unknown opcode, a command cut short, no command. -/
theorem witness_no_command : State.reset.resetRequest = false ∧ State.reset.commands = [] ∧
    ({ State.reset with commands := [0x00] } : State).commands = 0x00 :: [] ∧
    ({ State.reset with commands := [0x01, 0x00] } : State).commands = (encode (.new 0)).take 2 ∧
    (Instr.new 0).wellFormed specConfig.maxPayload = true ∧ 2 < (encode (.new 0)).length := by decide

/-- OnlyResetsAndCommandsChangeTheBlock and ResetAbandonsTheStream: a requested reset that changes the block. -/
theorem witness_reset : step { machine (fresh 1 [2]) with resetRequest := true } = .next State.reset ∧
    State.reset.block ≠ (fresh 1 [2]) := ⟨rfl, by decide⟩

/-- StepKeepsTheBlockLegal: a legal block and a step that goes on. -/
theorem witness_legal : (State.reset.withFetchWord 8 0x03).block.Legal specConfig ∧
    step (State.reset.withFetchWord 8 0x03) = .next { State.reset with responses := [0x81] } :=
  ⟨⟨by decide, .inl rfl, by decide, by decide, by decide⟩, rfl⟩

end Sys2Proof.Tests
end

section
/-! Reads of the block as sums of weighted bytes (R33). -/

namespace Sys2Proof.Machine

/-- The first `n` bytes of a sequence as a sum of weighted bytes; a byte past the end counts as zero. -/
theorem leValue_take (s : List Byte) (n : Nat) :
    leValue (s.take n) = ((List.range n).map (fun k => (s.getD k 0).toNat * 256 ^ k)).sum := by
  induction n generalizing s with
  | zero => simp
  | succ n ih =>
    cases s with
    | nil => simp
    | cons b bs =>
      have hshift : ((List.range n).map (fun k => (bs.getD k 0).toNat * 256 ^ (k + 1))).sum
          = 256 * leValue (bs.take n) := by
        simp only [ih, ← List.sum_map_mul_left, pow_succ']
        congr! 3
        ring
      simp [List.range_succ_eq_map, Function.comp_def, ← hshift]

/-- A slice given by its offset and its length. -/
theorem slice_add (s : List Byte) (off n : Nat) : slice s off (off + n) = (s.drop off).take n := by
  rw [slice, Nat.add_sub_cancel_left]

/-- A read of up to 8 bytes is the sum of the bytes it names, each times `256^k` (R33). -/
theorem memRead_toNat_eq_sum (s : List Byte) (off : Nat) {n : Nat} (hn : n ≤ 8) :
    (memRead s off n).toNat = ((List.range n).map (fun k => (s.getD (off + k) 0).toNat * 256 ^ k)).sum := by
  rw [memRead_toNat s off hn, slice_add, leValue_take]
  simp only [List.getD_eq_getElem?_getD, List.getElem?_drop]

/-- Settles O3: the widths of a read are at most 8 bytes, so no read wraps; the two examples are evaluated. -/
theorem memReadIsLittleEndian : Obligations.MemReadIsLittleEndian := by
  refine ⟨fun s off n hwidth _ => ?_, by decide, by decide⟩
  have hn : n ≤ 8 := by omega
  exact memRead_toNat_eq_sum s off hn

end Sys2Proof.Machine
end

section
/-! FINAL in phase OPEN always answers a digest (R99, R101), and so HASH does in either phase (R55, R100). -/

namespace Sys2Proof.Machine

variable (cfg : Config)

@[simp] theorem finishStream_fin (c last16 : List Byte) (b : Block) : (finishStream cfg c last16 b).1.fin = true := by
  obtain ⟨hfin, _⟩ := finishStream_frame cfg c last16 b
  exact hfin

@[simp] theorem finishStream_tail (c last16 : List Byte) (b : Block) :
    (finishStream cfg c last16 b).1.tail = b.tail := by
  obtain ⟨_, htail, _⟩ := finishStream_frame cfg c last16 b
  exact htail

@[simp] theorem finishStream_fbuf (c last16 : List Byte) (b : Block) :
    (finishStream cfg c last16 b).1.fbuf = b.fbuf := by
  obtain ⟨_, _, hfbuf, _⟩ := finishStream_frame cfg c last16 b
  exact hfbuf

/-- Inside its contract SS.FINAL runs; it closes the stream, empties `tail` and leaves `fbuf` (R81, R82, R95). -/
theorem ssFinal_runs {buf : List Byte} {b : Block} (hfin : b.fin = false) (h : buf.length < 64) :
    ∃ r, ssFinal cfg buf b = .done r ∧ r.1.fin = true ∧ r.1.tail = [] ∧ r.1.fbuf = b.fbuf := by
  rcases ssFinal_cases cfg buf b with ⟨hclosed, _⟩ | ⟨_, hlong, _⟩ | ⟨_, _, hrun⟩
  · simp [hfin] at hclosed
  · omega
  · exact ⟨_, hrun, by simp, by simp, by simp⟩

/-- After the whole blocks are forwarded, SS.FINAL is given fewer than 64 bytes (R101). -/
theorem length_drop_wholeBlocks_lt (bytes : List Byte) : (bytes.drop (wholeBlocks bytes.length)).length < 64 := by
  rw [List.length_drop]
  exact lt_wholeBlocks_add _

/-- Closing an open stream runs, whatever its length: the block is CLOSED with both buffers empty (R99). -/
theorem closeStream_runs (bytes : List Byte) {b : Block} (hfin : b.fin = false) :
    ∃ r, closeStream cfg bytes b = .done r ∧ r.1.fin = true ∧ r.1.tail = [] ∧ r.1.fbuf = [] := by
  have hforward : ∃ b', forwardBlocks cfg bytes (b.setFbuf []) = .done b' ∧ b'.fin = false ∧ b'.fbuf = [] := by
    rcases forwardBlocks_cases cfg bytes (b.setFbuf []) hfin with ⟨_, h⟩ | ⟨_, b', _, h, hopen, hfbuf⟩
    · exact ⟨_, h, hfin, rfl⟩
    · exact ⟨b', h, hopen, hfbuf⟩
  obtain ⟨b', hb', hopen, hfbuf⟩ := hforward
  obtain ⟨r, hr, hclosed, htail, hkeep⟩ := ssFinal_runs cfg hopen (length_drop_wholeBlocks_lt bytes)
  exact ⟨r, by simp only [closeStream, hb', hr], hclosed, htail, hkeep.trans hfbuf⟩

/-- In phase OPEN, FINAL answers a digest and leaves the block CLOSED with both buffers empty (R99). -/
theorem finalCommand_open (data : List Byte) {s : State} (hfin : s.block.fin = false) :
    ∃ b d, finalCommand cfg data s = .next ((s.setBlock b).respond (.digest d)) ∧
      b.fin = true ∧ b.tail = [] ∧ b.fbuf = [] := by
  obtain ⟨⟨b, d⟩, hclose, hblock⟩ := closeStream_runs cfg (s.block.fbuf ++ data) hfin
  exact ⟨b, d, finalCommand_of_close cfg hfin hclose, hblock⟩

/-- In either phase, HASH answers a digest and leaves the block CLOSED with both buffers empty (R100). -/
theorem hashCommand_runs (seed : Word) (data : List Byte) (s : State) :
    ∃ b d, hashCommand cfg seed data s = .next ((s.setBlock b).respond (.digest d)) ∧
      b.fin = true ∧ b.tail = [] ∧ b.fbuf = [] := by
  rw [hashCommand_eq]
  exact finalCommand_open cfg data (s := s.setBlock (openStream cfg seed s.block)) rfl

/-- Settles O18: NEW opens the stream on which HASH is FINAL, and FINAL on an open stream answers one digest. -/
theorem hashIsNewThenFinal : Obligations.HashIsNewThenFinal := by
  refine ⟨fun seed data s => ?_, rfl, rfl⟩
  simp only [exec_eq_runCommand]
  refine ⟨(s.setBlock (openStream specConfig seed s.block)).respond .ok, rfl, ?_, ?_⟩
  · exact hashCommand_eq specConfig seed data s
  · obtain ⟨b, d, hrun, hclosed, _⟩ := hashCommand_runs specConfig seed data s
    exact ⟨_, d, hrun, rfl, hclosed⟩

end Sys2Proof.Machine
end

section
/-! The Mixer (R62, R64): the exact product fixes both halves of MUM, and MIX folds them. -/

namespace Sys2Proof.Machine

/-- The two halves of MUM put together again are the exact product (R61, R62). -/
theorem mum_exact (a b : Word) : (mum a b).1.toNat + 2 ^ 64 * (mum a b).2.toNat = a.toNat * b.toNat := by
  rw [mum_fst_toNat, mum_snd_toNat]
  exact Nat.mod_add_div _ _

/-- The exact product has one split into two words, so a pair is MUM's result exactly when it adds up to the product. -/
theorem mum_eq_iff (a b lo hi : Word) : mum a b = (lo, hi) ↔ lo.toNat + 2 ^ 64 * hi.toNat = a.toNat * b.toNat := by
  constructor
  · intro h
    simpa only [h] using mum_exact a b
  · intro h
    have hsplit := mum_exact a b
    have hlo : (mum a b).1 = lo := by bv_omega
    have hhi : (mum a b).2 = hi := by bv_omega
    exact Prod.ext hlo hhi

@[simp] theorem mum_zero_left (a : Word) : mum 0 a = (0, 0) := by simp [mum_eq_iff]

@[simp] theorem mum_one_left (a : Word) : mum 1 a = (a, 0) := by simp [mum_eq_iff]

theorem mum_comm (a b : Word) : mum a b = mum b a := by
  rw [← Prod.mk.eta (p := mum b a), mum_eq_iff, mum_exact, Nat.mul_comm]

@[simp] theorem mum_zero_right (a : Word) : mum a 0 = (0, 0) := by rw [mum_comm, mum_zero_left]

/-- MIX of operands whose MUM is known (R64). -/
theorem mix_eq_of_mum {a b lo hi : Word} (h : mum a b = (lo, hi)) : mix a b = lo ^^^ hi := by
  simp only [mix, h]

/-- A zero operand erases the other operand (R64). -/
@[simp] theorem mix_zero_left (a : Word) : mix 0 a = 0 := mix_eq_of_mum (mum_zero_left a)

@[simp] theorem mix_zero_right (a : Word) : mix a 0 = 0 := mix_eq_of_mum (mum_zero_right a)

@[simp] theorem mix_one_left (a : Word) : mix 1 a = a := by
  rw [mix_eq_of_mum (mum_one_left a)]
  exact BitVec.xor_zero

theorem mix_comm (a b : Word) : mix a b = mix b a := by
  rw [mix, mum_comm, ← mix]

/-- MUM over the exact product: the low half is the product taken modulo `2^64`, the high half the quotient (R62). -/
theorem mum_eq_ofNat (a b : Word) :
    mum a b = (BitVec.ofNat 64 (a.toNat * b.toNat), BitVec.ofNat 64 (a.toNat * b.toNat / 2 ^ 64)) := by
  have hlo : (mum a b).1 = BitVec.ofNat 64 (a.toNat * b.toNat) :=
    BitVec.eq_of_toNat_eq (by rw [mum_fst_toNat, BitVec.toNat_ofNat])
  exact Prod.ext hlo rfl

/-- Settles O1: the exact product fixes both halves, so each case and each example is an equation on naturals. -/
theorem mumSplitsTheExactProduct : Obligations.MumSplitsTheExactProduct := by
  refine ⟨mum_exact, fun a => ⟨mum_zero_left a, mum_zero_right a, mum_one_left a⟩, mum_comm, ?_, ?_, ?_⟩
  · exact (mum_eq_iff _ _ _ _).2 (by decide)
  · exact (mum_eq_iff _ _ _ _).2 (by decide)
  · exact (mum_eq_iff _ _ _ _).2 (by decide)

/-- Settles O2: each case and each example folds the halves that MUM has there. -/
theorem mixFoldsTheProduct : Obligations.MixFoldsTheProduct := by
  obtain ⟨_, _, _, hmax, hpow, _⟩ := mumSplitsTheExactProduct
  refine ⟨fun a b => mix_eq_of_mum (mum_eq_ofNat a b), fun _ _ => rfl,
    fun a => ⟨mix_zero_left a, mix_zero_right a, mix_one_left a⟩, mix_comm, ?_, ?_, ?_⟩
  · exact mix_eq_of_mum hmax
  · exact mix_eq_of_mum hpow
  · have hmum : mum 0xa0761d6478bd642f 0xe7037ed1a0b428db = (0x8f3907f7b2b80c35, 0x90ccc56588c08119) :=
      (mum_eq_iff _ _ _ _).2 (by decide)
    exact mix_eq_of_mum hmum

end Sys2Proof.Machine
end

section
/-! The RoundAbsorber (R67, R68, R70): the zero operands of a step, and ABSORB's loop as a fold over the step numbers. -/

namespace Sys2Proof.Machine

variable (cfg : Config)

/-- A first word equal to the constant, or a second equal to the accumulator, is a zero operand of MIX (R67). -/
theorem stepValue_eq_zero {constant acc w0 w1 : Word} (h : w0 = constant ∨ w1 = acc) :
    stepValue constant acc w0 w1 = 0 := by
  rcases h with rfl | rfl
  · rw [stepValue, BitVec.xor_self]
    exact mix_zero_left _
  · rw [stepValue, BitVec.xor_self]
    exact mix_zero_right _

/-- Settles O4: LANE's frame, the zero operands of its step, and the example's step evaluated. -/
theorem laneWritesItsAccumulatorOnly : Obligations.LaneWritesItsAccumulatorOnly := by
  refine ⟨fun cfg op w0 w1 b => ⟨lane_acc_same cfg op w0 w1 b, fun j hj => lane_acc_other cfg w0 w1 b hj,
    lane_totalLength .., lane_fin .., lane_tail .., lane_fbuf .., fun hzero => ?_⟩, fun cfg => ⟨rfl, rfl, rfl⟩,
    fun cfg b hp1 hacc0 => ?_⟩
  · rw [lane_acc_same, stepValue_eq_zero hzero]
  · have hstep : stepValue cfg.p1 b.acc0 0x0706050403020100 0x0f0e0d0c0b0a0908 = 0x60cbf30c23c498f7 := by
      rw [hp1, hacc0]
      decide
    exact (lane_acc_same cfg .lane0 _ _ b).trans hstep

/-- ABSORB's step number `j`: bytes `16j` to `16j + 15` in the lane of index `first + j` (R68). -/
def absorbStep (buf : List Byte) (first : Nat) (b : Block) (j : Nat) : Block :=
  lane cfg (laneOf (first + j)) (memRead buf (16 * j) 8) (memRead buf (16 * j + 8) 8) b

/-- The loop of ABSORB entered at step `i` takes the steps `i` to `i + k - 1` in order (R68). -/
theorem laneSteps_eq_foldl (buf : List Byte) (first k i : Nat) (b : Block) :
    laneSteps cfg buf k (16 * i) (laneOf (first + i)) b = (List.range' i k).foldl (absorbStep cfg buf first) b := by
  induction k generalizing i b with
  | zero => rfl
  | succ k ih =>
    rw [laneSteps_succ, List.range'_succ, List.foldl_cons, ← ih, ← laneOf_succ]
    rfl

/-- ABSORB of `k` whole steps: the steps in order from the lane of `T`, then the length added to `T` once (R68, R70). -/
theorem absorb_eq_foldl {buf : List Byte} {k : Nat} (hlen : buf.length = 16 * k) (b : Block) :
    absorb cfg buf b =
      ((List.range k).foldl (absorbStep cfg buf (b.totalLength.toNat % 48 / 16)) b).setTotal
        (b.totalLength + BitVec.ofNat 64 buf.length) := by
  have hsteps := laneSteps_eq_foldl cfg buf (b.totalLength.toNat % 48 / 16) k 0 b
  rw [← List.range_eq_range'] at hsteps
  rw [← hsteps, absorb, Block.addTotal, laneSteps_totalLength, hlen, stepCount_mul]
  rfl

/-- Four steps from `T = 0`: the first and the last in lane 0, the two between in lanes 1 and 2 (R68). -/
theorem absorb_fourSteps {buf : List Byte} (hlen : buf.length = 64) {b : Block} (htotal : b.totalLength = 0) :
    absorb cfg buf b =
      { b with
        acc0 := stepValue cfg.p1 (stepValue cfg.p1 b.acc0 (memRead buf 0 8) (memRead buf 8 8))
          (memRead buf 48 8) (memRead buf 56 8)
        acc1 := stepValue cfg.p2 b.acc1 (memRead buf 16 8) (memRead buf 24 8)
        acc2 := stepValue cfg.p3 b.acc2 (memRead buf 32 8) (memRead buf 40 8)
        totalLength := 64 } := by
  rw [absorb_eq_foldl cfg (k := 4) hlen, htotal, hlen]
  rfl

/-- Settles O5: the loop is a fold over the step numbers; the example is four such steps, evaluated lane by lane. -/
theorem absorbStepsRoundRobinFromT : Obligations.AbsorbStepsRoundRobinFromT := by
  refine ⟨fun cfg b hp1 hp2 hp3 hacc0 hacc1 hacc2 htotal => ?_, fun cfg b => ⟨absorb_nil cfg b, fun buf hwhole =>
    ⟨?_, absorb_tail cfg buf b, absorb_fbuf cfg buf b, absorb_fin cfg buf b⟩⟩⟩
  · have hlane0 : stepValue 0xe7037ed1a0b428db
        (stepValue 0xe7037ed1a0b428db 0x1ff5c2923a788d2c (memRead (ramp 64) 0 8) (memRead (ramp 64) 8 8))
        (memRead (ramp 64) 48 8) (memRead (ramp 64) 56 8) = 0x065c16288b3fc24a := by decide
    have hlane1 : stepValue 0x8ebc6af09c88c6e3 0x1ff5c2923a788d2c (memRead (ramp 64) 16 8) (memRead (ramp 64) 24 8) =
        0xfa2817ed92875ae6 := by decide
    have hlane2 : stepValue 0x589965cc75374cc3 0x1ff5c2923a788d2c (memRead (ramp 64) 32 8) (memRead (ramp 64) 40 8) =
        0x2b05c90025648da4 := by decide
    rw [absorb_fourSteps cfg (by simp [ramp]) htotal, hp1, hp2, hp3, hacc0, hacc1, hacc2, hlane0, hlane1, hlane2]
  · exact absorb_eq_foldl cfg (Nat.mul_div_cancel' (Nat.dvd_of_mod_eq_zero hwhole)).symm b

end Sys2Proof.Machine
end

section
/-! SS.INIT and SS.UPDATE (R73, R76, R77): the corner cases of the mixed seed, and the step that the update reserves. -/

namespace Sys2Proof.Machine

variable (cfg : Config)

/-- The seed `P[0]` is its own mixed seed: it makes the first operand of MIX zero (R73). -/
theorem mixedSeed_p0 : mixedSeed cfg cfg.p0 = cfg.p0 := by
  have hzero : mix (cfg.p0 ^^^ cfg.p0) cfg.p1 = 0 := by
    rw [BitVec.xor_self]
    exact mix_zero_left _
  rw [mixedSeed, hzero]
  exact BitVec.xor_zero

/-- The seed 0 mixes to `MIX(P[0], P[1])` (R73). -/
theorem mixedSeed_zero : mixedSeed cfg 0 = mix cfg.p0 cfg.p1 := by simp [mixedSeed]

/-- Settles O8: the block SS.INIT leaves, and the mixed seed of the two corner cases. -/
theorem ssInitMixesTheSeed : Obligations.SsInitMixesTheSeed := by
  refine fun cfg hlanes => ⟨fun seed b => ?_, fun _ => mixedSeed_p0 cfg, fun _ hp0 hp1 => ?_⟩
  · rw [ssInit_eq, hlanes, mixedSeed]
  · obtain ⟨_, _, _, _, _, _, hexample⟩ := mixFoldsTheProduct
    calc mixedSeed cfg 0 = mix cfg.p0 cfg.p1 := mixedSeed_zero cfg
      _ = 0x1ff5c2923a788d2c := by rw [hp0, hp1, hexample]

/-- On a finalized state SS.UPDATE raises, whatever its operand (R76). -/
theorem ssUpdate_closed (buf : List Byte) {b : Block} (hfin : b.fin = true) :
    ssUpdate cfg buf b = .raised .alreadyFinalized := by
  rcases ssUpdate_cases cfg buf b with ⟨_, hraise⟩ | ⟨hopen, _⟩ | ⟨hopen, _⟩
  · exact hraise
  · simp [hfin] at hopen
  · simp [hfin] at hopen

/-- On an open stream and within its contract, SS.UPDATE absorbs the prefix of `tail ‖ buf` and keeps the rest (R76). -/
theorem ssUpdate_open {buf : List Byte} {b : Block} (hfin : b.fin = false) (hblocks : buf.length % 64 = 0) :
    ssUpdate cfg buf b =
      .done ((absorb cfg ((b.tail ++ buf).take (updatePrefix (b.tail ++ buf).length)) b).setTail
        ((b.tail ++ buf).drop (updatePrefix (b.tail ++ buf).length))) := by
  rcases ssUpdate_cases cfg buf b with ⟨hclosed, _⟩ | ⟨_, houtside, _⟩ | ⟨_, _, hrun⟩
  · simp [hfin] at hclosed
  · exact absurd hblocks houtside
  · exact hrun

/-- Of whole steps, SS.UPDATE absorbs all but one (R78). -/
theorem updatePrefix_of_whole_steps {len : Nat} (h : len % 16 = 0) : updatePrefix len = len - 16 := by
  unfold updatePrefix
  omega

/-- The last bytes of a concatenation are the last bytes of its second part, where that is long enough. -/
theorem drop_append_length_sub (xs ys : List Byte) {k : Nat} (h : k ≤ ys.length) :
    (xs ++ ys).drop ((xs ++ ys).length - k) = ys.drop (ys.length - k) := by
  rw [List.length_append, Nat.add_sub_assoc h, List.drop_length_add_append]

/-- Settles O9: within the contract SS.UPDATE runs, and from an empty or a 16-byte tail `tail ‖ buf` is whole steps, of
which the reserved one lies in `buf`. -/
theorem ssUpdateReservesTheLastStep : Obligations.SsUpdateReservesTheLastStep := by
  refine fun cfg buf b hblocks hpos => ⟨ssUpdate_closed cfg buf, fun hfin => ?_⟩
  refine ⟨_, ssUpdate_open cfg hfin hblocks, rfl, by simp, by simp [hfin], fun htail => ?_⟩
  have hlen : (b.tail ++ buf).length = b.tail.length + buf.length := List.length_append
  have htail_len : b.tail.length = 0 ∨ b.tail.length = 16 := htail.imp_left List.length_eq_zero_iff.2
  have hprefix : updatePrefix (b.tail ++ buf).length = (b.tail ++ buf).length - 16 :=
    updatePrefix_of_whole_steps (by omega)
  refine ⟨hprefix, ?_, ?_⟩
  · rw [hprefix, Block.setTail_tail]
    exact drop_append_length_sub b.tail buf (by omega)
  · rw [hprefix, Block.setTail_totalLength, absorb_totalLength, List.length_take_of_le (Nat.sub_le _ _)]

end Sys2Proof.Machine
end

section
/-! UPDATE and FINAL in phase OPEN (R98, R99): both forward the whole blocks of `fbuf ‖ data` and keep the rest. -/

namespace Sys2Proof.Machine

open Host (Outcome)

variable (cfg : Config)

/-- Forwarding on an open stream runs: with no whole block it changes nothing, otherwise it is SS.UPDATE on the whole
blocks; the stream stays open, and `fbuf` is not touched (R98, R99, R101). -/
theorem forwardBlocks_runs (bytes : List Byte) {b : Block} (hfin : b.fin = false) :
    ∃ b', forwardBlocks cfg bytes b = .done b' ∧ b'.fin = false ∧ b'.fbuf = b.fbuf ∧
      (wholeBlocks bytes.length = 0 → b' = b) ∧
      (0 < wholeBlocks bytes.length → ssUpdate cfg (bytes.take (wholeBlocks bytes.length)) b = .done b') := by
  rcases forwardBlocks_cases cfg bytes b hfin with ⟨hshort, hrun⟩ | ⟨hlong, b', hupdate, hrun, hopen, hfbuf⟩
  · have hnone : wholeBlocks bytes.length = 0 := by unfold wholeBlocks; omega
    exact ⟨b, hrun, hfin, rfl, fun _ => rfl, fun hsome => by omega⟩
  · have hsome : 0 < wholeBlocks bytes.length := by unfold wholeBlocks; omega
    exact ⟨b', hrun, hopen, hfbuf, fun hnone => by omega, fun _ => hupdate⟩

/-- What is left after the whole blocks is the length modulo 64 (R98). -/
theorem length_drop_wholeBlocks (bytes : List Byte) :
    (bytes.drop (wholeBlocks bytes.length)).length = bytes.length % 64 := by
  rw [List.length_drop]
  unfold wholeBlocks
  omega

/-- Closing a stream is SS.FINAL on the bytes after the whole blocks, once those are forwarded (R99). -/
theorem closeStream_of_forward {bytes : List Byte} {b b' : Block}
    (h : forwardBlocks cfg bytes (b.setFbuf []) = .done b') :
    closeStream cfg bytes b = ssFinal cfg (bytes.drop (wholeBlocks bytes.length)) b' := by
  simp only [closeStream, h]

/-- UPDATE in phase OPEN that completes no block only grows `fbuf` (R98). -/
theorem updateCommand_noBlock {data : List Byte} {s : State} (hfin : s.block.fin = false)
    (hnone : wholeBlocks (s.block.fbuf ++ data).length = 0) :
    updateCommand cfg data s = .next ((s.setBlock (s.block.setFbuf (s.block.fbuf ++ data))).respond .ok) := by
  obtain ⟨b, hforward, _, _, hkeep, _⟩ := forwardBlocks_runs cfg (s.block.fbuf ++ data) hfin
  rw [updateCommand_of_forward cfg hfin hforward, hkeep hnone, hnone, List.drop_zero]

/-- UPDATE in phase OPEN that completes a block: `tail` and the whole blocks are absorbed up to the reserved step, and the
bytes after the blocks are buffered (R76, R98). -/
theorem updateCommand_wholeBlocks {data : List Byte} {s : State} (hfin : s.block.fin = false)
    {bytes : List Byte} (hbytes : bytes = s.block.fbuf ++ data) (hsome : 0 < wholeBlocks bytes.length)
    {c : List Byte} (hc : c = s.block.tail ++ bytes.take (wholeBlocks bytes.length)) :
    updateCommand cfg data s = .next ((s.setBlock
      (((absorb cfg (c.take (updatePrefix c.length)) s.block).setTail (c.drop (updatePrefix c.length))).setFbuf
        (bytes.drop (wholeBlocks bytes.length)))).respond .ok) := by
  obtain ⟨b, hforward, _, _, _, hupdate⟩ := forwardBlocks_runs cfg bytes hfin
  have habsorbed := (hupdate hsome).symm.trans (ssUpdate_open cfg hfin (take_wholeBlocks_mod bytes))
  rw [← hc] at habsorbed
  subst hbytes
  rw [updateCommand_of_forward cfg hfin hforward, Attempt.done.inj habsorbed]

/-- UPDATE in phase OPEN leaves in `fbuf` the length of `fbuf ‖ data` modulo 64 (R98). -/
theorem updateCommand_fbuf_length {data : List Byte} {s t : State} (hfin : s.block.fin = false)
    (h : updateCommand cfg data s = .next t) : t.block.fbuf.length = (s.block.fbuf ++ data).length % 64 := by
  obtain ⟨b, hforward, _⟩ := forwardBlocks_runs cfg (s.block.fbuf ++ data) hfin
  obtain rfl := Outcome.next.inj ((updateCommand_of_forward cfg hfin hforward).symm.trans h)
  exact length_drop_wholeBlocks _

/-- Settles O14: without a whole block `fbuf` grows, with one SS.UPDATE absorbs it, and the rest is the length modulo 64. -/
theorem updateForwardsWholeBlocks : Obligations.UpdateForwardsWholeBlocks := by
  intro data s bytes n c k
  simp only [exec_eq_runCommand]
  refine ⟨fun hfin hnone => ?_, fun hfin hsome => ?_, fun hfin => ?_, fun t hfin ht => ?_⟩
  · exact updateCommand_noBlock specConfig hfin hnone
  · exact updateCommand_wholeBlocks specConfig hfin (bytes := bytes) rfl hsome (c := c) rfl
  · exact updateCommand_closed specConfig data hfin
  · exact updateCommand_fbuf_length specConfig hfin ht

/-- Settles O16: forwarding leaves an open stream, on which SS.FINAL is given less than one block. -/
theorem finalClosesTheStream : Obligations.FinalClosesTheStream := by
  refine fun data s => ⟨fun hfin => ?_, finalCommand_closed specConfig data⟩
  intro bytes n
  have hopened : (s.block.setFbuf []).fin = false := hfin
  obtain ⟨b1, hforward, hopen, hfbuf, hkeep, hupdate⟩ := forwardBlocks_runs specConfig bytes hopened
  have hrest : (bytes.drop n).length < 64 := length_drop_wholeBlocks_lt bytes
  obtain ⟨⟨b2, d⟩, hfinal, hclosed, htail, hempty⟩ := ssFinal_runs specConfig hopen hrest
  have hclose : closeStream specConfig bytes s.block = .done (b2, d) :=
    (closeStream_of_forward specConfig hforward).trans hfinal
  exact ⟨b1, b2, d, hkeep, hupdate, hrest, hfinal, finalCommand_of_close specConfig hfin hclose, hclosed, htail,
    hempty.trans hfbuf⟩

end Sys2Proof.Machine
end

section
/-! The rendering of a digest (R103): sixteen hexadecimal digits, which determine it. -/

namespace Sys2Proof.Machine

/-- The alphabet of the rendering, in order of value (R103). -/
theorem hexDigit_eq_alphabet {v : Nat} (h : v < 16) : "0123456789abcdef".toList[v]? = some (hexDigit v) := by
  decide +revert

/-- Different values below 16 have different digits. -/
theorem hexDigit_inj : ∀ v < 16, ∀ w < 16, hexDigit v = hexDigit w → v = w := by
  decide

/-- The low `n` hexadecimal digits of two numbers determine them modulo `16^n`. -/
theorem mod_pow_eq_of_hexDigits_eq {a b n : Nat} (h : ∀ j < n, a / 16 ^ j % 16 = b / 16 ^ j % 16) :
    a % 16 ^ n = b % 16 ^ n := by
  induction n with
  | zero => simp [Nat.mod_one]
  | succ n ih =>
    rw [Nat.mod_pow_succ, Nat.mod_pow_succ, ih fun j hj => h j (by omega), h n (by omega)]

theorem renderDigest_length (d : Word) : (renderDigest d).length = 16 := by
  simp [renderDigest, Config.digestHex]

/-- Character `i` of the rendering is the digit of bits `63 - 4i` to `60 - 4i` (R103). -/
theorem renderDigest_getElem? (d : Word) {i : Nat} (h : i < 16) :
    (renderDigest d)[i]? = some (hexDigit (d.toNat / 2 ^ (60 - 4 * i) % 16)) := by
  simp [renderDigest, Config.digestHex, h]

/-- A digest is determined by its rendering (R103). -/
theorem renderDigest_injective : Function.Injective renderDigest := by
  intro d d' h
  have hdigit : ∀ j < 16, d.toNat / 16 ^ j % 16 = d'.toNat / 16 ^ j % 16 := by
    intro j hj
    have hpow : 2 ^ (60 - 4 * (15 - j)) = 16 ^ j := by
      rw [show 60 - 4 * (15 - j) = 4 * j by omega, pow_mul]
      norm_num
    have hchar := congrArg (fun chars => chars[15 - j]?) h
    simp only [renderDigest_getElem? _ (show 15 - j < 16 by omega), hpow, Option.some.injEq] at hchar
    exact hexDigit_inj _ (Nat.mod_lt _ (by decide)) _ (Nat.mod_lt _ (by decide)) hchar
  have hmod : d.toNat % 16 ^ 16 = d'.toNat % 16 ^ 16 := mod_pow_eq_of_hexDigits_eq hdigit
  bv_omega

/-- Settles O33: each character is a digit of the alphabet, the digits determine the digest, the example is evaluated. -/
theorem renderingIsSixteenHexDigits : Obligations.RenderingIsSixteenHexDigits := by
  refine ⟨fun d => ⟨renderDigest_length d, fun i hi => ?_⟩, fun _ _ h => renderDigest_injective h, by decide⟩
  rw [renderDigest_getElem? d hi, BitVec.toNat_ushiftRight, Nat.shiftRight_eq_div_pow,
    hexDigit_eq_alphabet (Nat.mod_lt _ (by decide))]

end Sys2Proof.Machine
end

section
/-! The one error and the way out of it (R111, R112, R117): UPDATE and FINAL on a CLOSED block fail, as often as they are
repeated; every other command in every state answers something else; NEW and HASH start over. -/

namespace Sys2Proof.Machine

variable (cfg : Config)

/-- On a CLOSED block UPDATE and FINAL answer the error and change nothing (R111, R116). -/
theorem runCommand_closed {i : Instr} {s : State} (hfin : s.block.fin = true)
    (hfails : (∃ data, i = .update data) ∨ (∃ data, i = .final data)) :
    runCommand cfg i s = .next (s.respond (.err .alreadyFinalized)) := by
  rcases hfails with ⟨data, rfl⟩ | ⟨data, rfl⟩
  · exact updateCommand_closed cfg data hfin
  · exact finalCommand_closed cfg data hfin

/-- UPDATE in phase OPEN completes with OK, whatever its payload (R98, R112). -/
theorem updateCommand_open (data : List Byte) {s : State} (hfin : s.block.fin = false) :
    ∃ b, updateCommand cfg data s = .next ((s.setBlock b).respond .ok) := by
  obtain ⟨_, hforward, _⟩ := forwardBlocks_runs cfg (s.block.fbuf ++ data) hfin
  exact ⟨_, updateCommand_of_forward cfg hfin hforward⟩

/-- Everything a command can do: it completes, writing the block and giving one response, which is the error exactly for
UPDATE and FINAL on a CLOSED block (R112). -/
theorem runCommand_answers (i : Instr) (s : State) :
    ∃ b r, runCommand cfg i s = .next ((s.setBlock b).respond r) ∧
      (r = .err .alreadyFinalized ↔
        s.block.fin = true ∧ ((∃ data, i = .update data) ∨ (∃ data, i = .final data))) := by
  cases i with
  | new seed => exact ⟨openStream cfg seed s.block, .ok, rfl, by simp⟩
  | update data =>
    cases hfin : s.block.fin with
    | true => exact ⟨s.block, .err .alreadyFinalized, updateCommand_closed cfg data hfin, by simp⟩
    | false =>
      obtain ⟨b, hrun⟩ := updateCommand_open cfg data hfin
      exact ⟨b, .ok, hrun, by simp⟩
  | final data =>
    cases hfin : s.block.fin with
    | true => exact ⟨s.block, .err .alreadyFinalized, finalCommand_closed cfg data hfin, by simp⟩
    | false =>
      obtain ⟨b, d, hrun, _⟩ := finalCommand_open cfg data hfin
      exact ⟨b, .digest d, hrun, by simp⟩
  | hash seed data =>
    obtain ⟨b, d, hrun, _⟩ := hashCommand_runs cfg seed data s
    exact ⟨b, .digest d, hrun, by simp⟩

/-- Settles O23: a command writes the block and appends one response, and so leaves the unread commands and the reset
request. -/
theorem noOtherConditionIsAnError : Obligations.NoOtherConditionIsAnError := by
  intro i s
  rw [exec_eq_runCommand]
  obtain ⟨b, r, hrun, herror⟩ := runCommand_answers specConfig i s
  exact ⟨_, r, hrun, rfl, herror, rfl, rfl⟩

/-- A command that completes hands its state to the commands after it (R40). -/
theorem runCommands_cons_of_next {i : Instr} {rest : List Instr} {s t : State} (h : runCommand cfg i s = .next t) :
    runCommands cfg (i :: rest) s = runCommands cfg rest t := by
  simp only [runCommands, h]

/-- Failing commands leave the block CLOSED, so each of them fails in turn and appends its own error response (R117). -/
theorem runCommands_closed {is : List Instr} {s : State} (hfin : s.block.fin = true)
    (hfails : ∀ i ∈ is, (∃ data, i = .update data) ∨ (∃ data, i = .final data)) :
    runCommands cfg is s = .next
      { s with responses := s.responses ++ (is.map (fun _ => encodeResponse (.err .alreadyFinalized))).flatten } := by
  induction is generalizing s with
  | nil => simp [runCommands]
  | cons i rest ih =>
    obtain ⟨hfirst, hrest⟩ := List.forall_mem_cons.1 hfails
    have hstill : (s.respond (.err .alreadyFinalized)).block.fin = true := hfin
    rw [runCommands_cons_of_next cfg (runCommand_closed cfg hfin hfirst), ih hstill hrest]
    simp [State.respond]

@[simp] theorem State.setBlock_setBlock (s : State) (b b' : Block) : (s.setBlock b).setBlock b' = s.setBlock b' := rfl

/-- NEW depends on nothing in the block it finds (R97). -/
theorem newCommand_setBlock (seed : Word) (s : State) (b : Block) :
    newCommand cfg seed (s.setBlock b) = newCommand cfg seed s := by
  simp only [newCommand, State.setBlock_setBlock, openStream_eq]

/-- HASH depends on nothing in the block it finds (R100, R105). -/
theorem hashCommand_setBlock (seed : Word) (data : List Byte) (s : State) (b : Block) :
    hashCommand cfg seed data (s.setBlock b) = hashCommand cfg seed data s := by
  simp only [hashCommand_eq, State.setBlock_setBlock, openStream_eq]

/-- Settles O21: repeated failure is by induction on the commands; NEW and HASH complete on any block alike. -/
theorem failedCommandsFailAgain : Obligations.FailedCommandsFailAgain := by
  refine ⟨fun cfg is s hfin hfails => runCommands_closed cfg hfin hfails, fun seed data s _ => ⟨?_, ?_⟩⟩
  · exact ⟨_, rfl, rfl, newCommand_setBlock specConfig seed s⟩
  · obtain ⟨b, d, hrun, _⟩ := hashCommand_runs specConfig seed data s
    exact ⟨_, d, hrun, rfl, fun b' => (hashCommand_setBlock specConfig seed data s b').trans hrun⟩

end Sys2Proof.Machine
end

section
/-! One digest per stream (R130): the FINAL that answers it leaves the block CLOSED, where UPDATE and FINAL fail. -/

namespace Sys2Proof.Machine

/-- In phase OPEN, FINAL completes with a digest on a CLOSED block: `finalCommand_open` read as a step of `exec`. -/
theorem exec_final_open (data : List Byte) {s : State} (hopen : s.block.fin = false) :
    ∃ t d, exec (.final data) s = .next t ∧ t.responses = s.responses ++ encodeResponse (.digest d) ∧
      t.block.fin = true := by
  obtain ⟨b, d, hrun, hclosed, _⟩ := finalCommand_open specConfig data hopen
  exact ⟨(s.setBlock b).respond (.digest d), d, (exec_eq_runCommand _ s).trans hrun, rfl, hclosed⟩

/-- In phase CLOSED, UPDATE and FINAL append the error response and change nothing else: `runCommand_closed` read as a
step of `exec`. -/
theorem exec_closed {i : Instr} {s : State} (hclosed : s.block.fin = true)
    (hfails : (∃ data, i = .update data) ∨ (∃ data, i = .final data)) :
    exec i s = .next { s with responses := s.responses ++ encodeResponse (.err .alreadyFinalized) } :=
  (exec_eq_runCommand i s).trans (runCommand_closed specConfig hclosed hfails)

/-- Settles O22: the first FINAL closes the block, and on a CLOSED block both commands answer the error only. -/
theorem finalSucceedsOncePerStream : Obligations.FinalSucceedsOncePerStream := by
  intro first data s hopen
  obtain ⟨t, d, hfirst, hanswer, hclosed⟩ := exec_final_open first hopen
  have hfinal := exec_closed hclosed (.inr ⟨data, rfl⟩)
  have hupdate := exec_closed hclosed (.inl ⟨data, rfl⟩)
  exact ⟨t, d, hfirst, hanswer, hfinal, hupdate⟩

end Sys2Proof.Machine
end

section
/-! The command channel's encoding (R46 to R51): decoding gives back what was encoded, and nothing else decodes. -/

namespace Sys2Proof.Machine

/-- A slice and what follows it are what follows its beginning. -/
theorem slice_append_drop (s : List Byte) {i j : Nat} (h : i ≤ j) : slice s i j ++ s.drop j = s.drop i := by
  have hdrop : s.drop j = (s.drop i).drop (j - i) := by rw [List.drop_drop, Nat.add_sub_cancel' h]
  rw [slice, hdrop, List.take_append_drop]

/-- A 64-bit field of the channel holds the value it was written with (R47). -/
theorem memRead_leBytes (pre rest : List Byte) (v : Nat) :
    memRead (pre ++ (leBytes 8 v ++ rest)) pre.length 8 = BitVec.ofNat 64 v := by
  have hfield : slice (leBytes 8 v) 0 (0 + 8) = leBytes 8 v := by
    rw [slice_add, List.drop_zero, List.take_of_length_le (by rw [leBytes_length])]
  rw [memRead_append_right _ _ _ le_rfl, Nat.sub_self, memRead_append_left _ _ (by rw [leBytes_length]), memRead, hfield,
    leValue_leBytes]
  exact BitVec.eq_of_toNat_eq (by simp)

/-- A 64-bit field written with the value read from a place is what stands there (R47). -/
theorem leBytes_memRead (s : List Byte) {off : Nat} (h : off + 8 ≤ s.length) :
    leBytes 8 (memRead s off 8).toNat = slice s off (off + 8) := by
  have hlen : (slice s off (off + 8)).length = 8 := by rw [slice_length]; omega
  have hbytes := leBytes_leValue (slice s off (off + 8))
  rwa [hlen, ← memRead_toNat s off le_rfl] at hbytes

/-- A read that ends before the first `k` bytes do reads the same from those bytes. -/
theorem memRead_take (s : List Byte) {k off n : Nat} (hk : off + n ≤ k) (hlen : k ≤ s.length) :
    memRead (s.take k) off n = memRead s off n := by
  conv_rhs => rw [← List.take_append_drop k s]
  exact (memRead_append_left _ _ (by rwa [List.length_take_of_le hlen])).symm

/-- A seed is read back from its field (R47). -/
theorem memRead_encodeField (pre rest : List Byte) (v : Word) :
    memRead (pre ++ (encodeField v ++ rest)) pre.length 8 = v := by
  rw [encodeField, memRead_leBytes, BitVec.ofNat_toNat, BitVec.setWidth_eq]

/-- A length that the `len` field can hold is read back from it (R47). -/
theorem memRead_encodeLength (pre rest : List Byte) {data : List Byte} (h : data.length < 2 ^ 64) :
    (memRead (pre ++ (encodeLength data ++ rest)) pre.length 8).toNat = data.length := by
  rw [encodeLength, memRead_leBytes, BitVec.toNat_ofNat, Nat.mod_eq_of_lt h]

/-- Format B is its opcode and its `len` field before the payload (R47). -/
theorem decodeFormatB_eq (maxPayload : Nat) (op : Byte) {data : List Byte} (rest : List Byte) (build : List Byte → Instr)
    (h : data.length < 2 ^ 64) :
    decodeFormatB maxPayload (op :: (encodeLength data ++ rest)) build =
      decodePayload maxPayload (op :: (encodeLength data ++ rest)) 9 data.length build := by
  have hlen := memRead_encodeLength [op] rest h
  rw [decodeFormatB, if_neg (by simp), ← hlen]
  rfl

/-- Format H is its opcode, its seed and its `len` field before the payload (R47). -/
theorem decodeFormatH_eq (maxPayload : Nat) (op : Byte) (seed : Word) {data : List Byte} (rest : List Byte)
    (h : data.length < 2 ^ 64) :
    decodeFormatH maxPayload (op :: (encodeField seed ++ (encodeLength data ++ rest))) =
      decodePayload maxPayload (op :: (encodeField seed ++ (encodeLength data ++ rest))) 17 data.length (.hash seed) := by
  have hseed : memRead (op :: (encodeField seed ++ (encodeLength data ++ rest))) 1 8 = seed :=
    memRead_encodeField [op] (encodeLength data ++ rest) seed
  have hlen := memRead_encodeLength (op :: encodeField seed) rest h
  simp only [List.length_cons, encodeField_length, List.cons_append] at hlen
  rw [decodeFormatH, if_neg (by simp; omega), hseed, hlen]

/-- A payload that fits is read, with the bytes after it left over (R49). -/
theorem decodePayload_append (maxPayload : Nat) (header data rest : List Byte) (build : List Byte → Instr)
    (h : data.length ≤ maxPayload) :
    decodePayload maxPayload (header ++ (data ++ rest)) header.length data.length build = .command (build data) rest := by
  rcases decodePayload_cases maxPayload (header ++ (data ++ rest)) header.length data.length build with
    ⟨hover, _⟩ | ⟨_, hshort, _⟩ | ⟨_, _, hrun⟩
  · omega
  · simp only [List.length_append] at hshort
    omega
  · rw [hrun, slice_add]
    simp [List.drop_append]

/-- A payload longer than `MAX_PAYLOAD` is refused, whatever follows (R51). -/
theorem decodePayload_oversize {maxPayload len : Nat} (cmd : List Byte) (header : Nat) (build : List Byte → Instr)
    (h : maxPayload < len) : decodePayload maxPayload cmd header len build = .oversize len := by
  rw [decodePayload, if_pos h]

/-- Settles O34: each format's fields are read back from where they were written, and so is the payload. -/
theorem decodeEncodeRoundTrip : Obligations.DecodeEncodeRoundTrip := by
  intro maxPayload i rest hwf
  obtain ⟨hmax, hfield⟩ := (Instr.wellFormed_iff maxPayload i).1 hwf
  cases i with
  | new seed =>
    have hseed : memRead (opcodeNew :: (encodeField seed ++ rest)) 1 8 = seed := memRead_encodeField [opcodeNew] rest seed
    rw [encode, List.cons_append, decodeCommand_new, decodeFormatN, if_neg (by simp), hseed]
    simp
  | update data =>
    rw [encode, List.cons_append, List.append_assoc, decodeCommand_update, decodeFormatB_eq _ _ (data := data) _ _ hfield]
    exact decodePayload_append maxPayload (opcodeUpdate :: encodeLength data) data rest .update hmax
  | final data =>
    rw [encode, List.cons_append, List.append_assoc, decodeCommand_final, decodeFormatB_eq _ _ (data := data) _ _ hfield]
    exact decodePayload_append maxPayload (opcodeFinal :: encodeLength data) data rest .final hmax
  | hash seed data =>
    rw [encode, List.cons_append, List.append_assoc, List.append_assoc, decodeCommand_hash,
      decodeFormatH_eq _ _ _ (data := data) _ hfield]
    exact decodePayload_append maxPayload (opcodeHash :: (encodeField seed ++ encodeLength data)) data rest (.hash seed) hmax

/-- What it takes for a payload to be read (R49, R51). -/
theorem decodePayload_eq_command {maxPayload header len : Nat} {cmd rest : List Byte} {build : List Byte → Instr}
    {i : Instr} (h : decodePayload maxPayload cmd header len build = .command i rest) :
    len ≤ maxPayload ∧ header + len ≤ cmd.length ∧ i = build (slice cmd header (header + len)) ∧
      rest = cmd.drop (header + len) := by
  rcases decodePayload_cases maxPayload cmd header len build with ⟨_, hover⟩ | ⟨_, _, hshort⟩ | ⟨hmax, hlen, hrun⟩
  · simp [hover] at h
  · simp [hshort] at h
  · obtain ⟨rfl, rfl⟩ := Decoded.command.inj (hrun.symm.trans h)
    exact ⟨hmax, hlen, rfl, rfl⟩

theorem decodeFormatN_eq_command {cmd rest : List Byte} {i : Instr} (h : decodeFormatN cmd = .command i rest) :
    9 ≤ cmd.length ∧ i = .new (memRead cmd 1 8) ∧ rest = cmd.drop 9 := by
  unfold decodeFormatN at h
  split at h
  · simp at h
  · obtain ⟨rfl, rfl⟩ := Decoded.command.inj h
    exact ⟨by omega, rfl, rfl⟩

theorem decodeFormatB_eq_command {maxPayload : Nat} {cmd rest : List Byte} {build : List Byte → Instr} {i : Instr}
    (h : decodeFormatB maxPayload cmd build = .command i rest) :
    9 ≤ cmd.length ∧ decodePayload maxPayload cmd 9 (memRead cmd 1 8).toNat build = .command i rest := by
  unfold decodeFormatB at h
  split at h
  · simp at h
  · exact ⟨by omega, h⟩

theorem decodeFormatH_eq_command {maxPayload : Nat} {cmd rest : List Byte} {i : Instr}
    (h : decodeFormatH maxPayload cmd = .command i rest) :
    17 ≤ cmd.length ∧
      decodePayload maxPayload cmd 17 (memRead cmd 9 8).toNat (.hash (memRead cmd 1 8)) = .command i rest := by
  unfold decodeFormatH at h
  split at h
  · simp at h
  · exact ⟨by omega, h⟩

/-- The opcode byte chooses the format, and any other byte spells no command (R48, R51). -/
theorem decodeCommand_cases (maxPayload : Nat) (op : Byte) (tail : List Byte) :
    op = opcodeNew ∨ op = opcodeUpdate ∨ op = opcodeFinal ∨ op = opcodeHash ∨
      decodeCommand maxPayload (op :: tail) = .unknownOpcode op := by
  by_cases hnew : op = opcodeNew
  · exact .inl hnew
  by_cases hupdate : op = opcodeUpdate
  · exact .inr (.inl hupdate)
  by_cases hfinal : op = opcodeFinal
  · exact .inr (.inr (.inl hfinal))
  by_cases hhash : op = opcodeHash
  · exact .inr (.inr (.inr (.inl hhash)))
  · exact .inr (.inr (.inr (.inr (by simp [decodeCommand, hnew, hupdate, hfinal, hhash]))))

/-- The bytes from a seed field on are the spelling of the seed read there. -/
theorem drop_eq_encodeField (bytes : List Byte) {off : Nat} (h : off + 8 ≤ bytes.length) :
    bytes.drop off = encodeField (memRead bytes off 8) ++ bytes.drop (off + 8) := by
  rw [encodeField, leBytes_memRead bytes h, slice_append_drop bytes (by omega)]

/-- The payload that a `len` field announces has the length read there, where the bytes are long enough. -/
theorem length_announced_payload {bytes : List Byte} {header n : Nat} (h : header + n ≤ bytes.length) :
    (slice bytes header (header + n)).length = n := by
  rw [slice_length]
  omega

/-- The bytes from a `len` field on are the spelling of the payload it announces. -/
theorem drop_eq_encodeLength (bytes : List Byte) (off : Nat) {data : List Byte}
    (hdata : data = slice bytes (off + 8) (off + 8 + (memRead bytes off 8).toNat))
    (h : off + 8 + (memRead bytes off 8).toNat ≤ bytes.length) :
    bytes.drop off = encodeLength data ++ (data ++ bytes.drop (off + 8 + (memRead bytes off 8).toNat)) := by
  have hlen : data.length = (memRead bytes off 8).toNat := hdata ▸ length_announced_payload h
  rw [encodeLength, hlen, leBytes_memRead bytes (by omega), hdata, slice_append_drop bytes (by omega),
    slice_append_drop bytes (by omega)]

/-- What format B decodes is spelled by the opcode, the `len` field and the payload, and the payload can be sent. -/
theorem decodeFormatB_spelling {maxPayload : Nat} {op : Byte} {tail rest : List Byte} {build : List Byte → Instr}
    {i : Instr} (h : decodeFormatB maxPayload (op :: tail) build = .command i rest) :
    ∃ data, i = build data ∧ data.length ≤ maxPayload ∧ data.length < 2 ^ 64 ∧
      op :: tail = op :: (encodeLength data ++ data) ++ rest := by
  obtain ⟨_, hpayload⟩ := decodeFormatB_eq_command h
  obtain ⟨hmax, hlen, hi, hrest⟩ := decodePayload_eq_command hpayload
  have hdata := length_announced_payload hlen
  refine ⟨_, hi, hdata.le.trans hmax, hdata.trans_lt (memRead (op :: tail) 1 8).isLt, ?_⟩
  have htail := drop_eq_encodeLength (op :: tail) 1 rfl hlen
  rw [hrest, List.cons_append, List.append_assoc, ← htail]
  rfl

/-- What format H decodes is spelled by the opcode, the two fields and the payload, and the payload can be sent. -/
theorem decodeFormatH_spelling {maxPayload : Nat} {op : Byte} {tail rest : List Byte} {i : Instr}
    (h : decodeFormatH maxPayload (op :: tail) = .command i rest) :
    ∃ seed data, i = .hash seed data ∧ data.length ≤ maxPayload ∧ data.length < 2 ^ 64 ∧
      op :: tail = op :: (encodeField seed ++ (encodeLength data ++ data)) ++ rest := by
  obtain ⟨hlong, hpayload⟩ := decodeFormatH_eq_command h
  obtain ⟨hmax, hlen, hi, hrest⟩ := decodePayload_eq_command hpayload
  have hdata := length_announced_payload hlen
  refine ⟨_, _, hi, hdata.le.trans hmax, hdata.trans_lt (memRead (op :: tail) 9 8).isLt, ?_⟩
  have hseed := drop_eq_encodeField (op :: tail) (off := 1) (by omega)
  have htail := drop_eq_encodeLength (op :: tail) 9 rfl hlen
  rw [hrest, List.cons_append, List.append_assoc, List.append_assoc, ← htail, ← hseed]
  rfl

/-- Settles O35: the decoder reads each field from its place, and a field read is spelled by the bytes it was read from. -/
theorem encodeDecodeRoundTrip : Obligations.EncodeDecodeRoundTrip := by
  intro maxPayload bytes rest i h
  rw [Instr.wellFormed_iff]
  cases bytes with
  | nil => simp [decodeCommand] at h
  | cons op tail =>
    rcases decodeCommand_cases maxPayload op tail with rfl | rfl | rfl | rfl | hunknown
    · rw [decodeCommand_new] at h
      obtain ⟨hlen, rfl, rfl⟩ := decodeFormatN_eq_command h
      refine ⟨?_, Nat.zero_le _, by simp [Instr.payload]⟩
      rw [encode, List.cons_append, ← drop_eq_encodeField _ (by omega)]
      rfl
    · rw [decodeCommand_update] at h
      obtain ⟨data, rfl, hmax, hfield, hbytes⟩ := decodeFormatB_spelling h
      exact ⟨hbytes, hmax, hfield⟩
    · rw [decodeCommand_final] at h
      obtain ⟨data, rfl, hmax, hfield, hbytes⟩ := decodeFormatB_spelling h
      exact ⟨hbytes, hmax, hfield⟩
    · rw [decodeCommand_hash] at h
      obtain ⟨seed, data, rfl, hmax, hfield, hbytes⟩ := decodeFormatH_spelling h
      exact ⟨hbytes, hmax, hfield⟩
    · simp [hunknown] at h

/-- A payload cut short is refused as truncated (R51). -/
theorem decodePayload_take {maxPayload header len k : Nat} {cmd : List Byte} {build : List Byte → Instr} {i : Instr}
    (h : decodePayload maxPayload cmd header len build = .command i []) (hk : k < cmd.length) :
    decodePayload maxPayload (cmd.take k) header len build = .truncated := by
  obtain ⟨hmax, _, _, hrest⟩ := decodePayload_eq_command h
  have hwhole : cmd.length ≤ header + len := List.drop_eq_nil_iff.1 hrest.symm
  have hcut : (cmd.take k).length < header + len := by rw [List.length_take_of_le hk.le]; omega
  rw [decodePayload, if_neg (Nat.not_lt.2 hmax), if_pos hcut]

theorem decodeFormatB_take {maxPayload k : Nat} {cmd : List Byte} {build : List Byte → Instr} {i : Instr}
    (h : decodeFormatB maxPayload cmd build = .command i []) (hk : k < cmd.length) :
    decodeFormatB maxPayload (cmd.take k) build = .truncated := by
  obtain ⟨_, hpayload⟩ := decodeFormatB_eq_command h
  have hlen : (cmd.take k).length = k := List.length_take_of_le hk.le
  rw [decodeFormatB, hlen]
  split
  · rfl
  · rw [memRead_take cmd (by omega) hk.le]
    exact decodePayload_take hpayload hk

theorem decodeFormatH_take {maxPayload k : Nat} {cmd : List Byte} {i : Instr}
    (h : decodeFormatH maxPayload cmd = .command i []) (hk : k < cmd.length) :
    decodeFormatH maxPayload (cmd.take k) = .truncated := by
  obtain ⟨_, hpayload⟩ := decodeFormatH_eq_command h
  have hlen : (cmd.take k).length = k := List.length_take_of_le hk.le
  rw [decodeFormatH, hlen]
  split
  · rfl
  · rw [memRead_take cmd (by omega) hk.le, memRead_take cmd (by omega) hk.le]
    exact decodePayload_take hpayload hk

/-- Bytes that spell exactly one command are refused as truncated when the last of them are missing (R51). -/
theorem decodeCommand_take {maxPayload k : Nat} {cmd : List Byte} {i : Instr}
    (h : decodeCommand maxPayload cmd = .command i []) (hpos : 0 < k) (hk : k < cmd.length) :
    decodeCommand maxPayload (cmd.take k) = .truncated := by
  cases cmd with
  | nil => simp at hk
  | cons op tail =>
    have htake : (op :: tail).take k = op :: tail.take (k - 1) := List.take_cons hpos
    rcases decodeCommand_cases maxPayload op tail with rfl | rfl | rfl | rfl | hunknown
    · rw [decodeCommand_new] at h
      obtain ⟨_, _, hrest⟩ := decodeFormatN_eq_command h
      have hwhole := List.drop_eq_nil_iff.1 hrest.symm
      rw [htake, decodeCommand_new, ← htake, decodeFormatN, if_pos]
      rw [List.length_take_of_le hk.le]
      omega
    · rw [decodeCommand_update] at h
      rw [htake, decodeCommand_update, ← htake]
      exact decodeFormatB_take h hk
    · rw [decodeCommand_final] at h
      rw [htake, decodeCommand_final, ← htake]
      exact decodeFormatB_take h hk
    · rw [decodeCommand_hash] at h
      rw [htake, decodeCommand_hash, ← htake]
      exact decodeFormatH_take h hk
    · simp [hunknown] at h

/-- A byte 0 or above 4 spells no command (R48, R51). -/
theorem decodeCommand_unknownOpcode (maxPayload : Nat) {op : Byte} (rest : List Byte) (h : op = 0 ∨ 5 ≤ op.toNat) :
    decodeCommand maxPayload (op :: rest) = .unknownOpcode op := by
  rcases decodeCommand_cases maxPayload op rest with rfl | rfl | rfl | rfl | hunknown
  · exact absurd h (by decide)
  · exact absurd h (by decide)
  · exact absurd h (by decide)
  · exact absurd h (by decide)
  · exact hunknown

/-- A command that can be sent, cut short, is refused as truncated (R51). -/
theorem decodeCommand_encode_take {maxPayload k : Nat} {i : Instr} (hwf : i.wellFormed maxPayload = true) (hpos : 0 < k)
    (hk : k < (encode i).length) : decodeCommand maxPayload ((encode i).take k) = .truncated := by
  have hwhole := decodeEncodeRoundTrip maxPayload i [] hwf
  rw [List.append_nil] at hwhole
  exact decodeCommand_take hwhole hpos hk

/-- Settles O36: the opcode byte is looked at first, a command's own bytes end with it, and `len` is read before the
payload. -/
theorem undecodableBytesAreRefused : Obligations.UndecodableBytesAreRefused := by
  refine fun maxPayload => ⟨fun op rest => decodeCommand_unknownOpcode maxPayload rest,
    fun i k => decodeCommand_encode_take, fun data rest seed hover hfield => ⟨?_, ?_, ?_⟩⟩
  · rw [encode, List.cons_append, List.append_assoc, decodeCommand_update, decodeFormatB_eq _ _ _ _ hfield]
    exact decodePayload_oversize _ _ _ hover
  · rw [encode, List.cons_append, List.append_assoc, decodeCommand_final, decodeFormatB_eq _ _ _ _ hfield]
    exact decodePayload_oversize _ _ _ hover
  · rw [encode, List.cons_append, List.append_assoc, List.append_assoc, decodeCommand_hash,
      decodeFormatH_eq _ _ _ _ hfield]
    exact decodePayload_oversize _ _ _ hover

end Sys2Proof.Machine
end

section
/-! Words of the encodings, the assembler's operands and the bytes of the responses (R46 to R55). -/

namespace Sys2Proof.Machine

/-- A command's own bytes decode to it with nothing left over: the round trip at the end of the channel. -/
theorem decodeCommand_encode {maxPayload : Nat} {i : Instr} (hwf : i.wellFormed maxPayload = true) :
    decodeCommand maxPayload (encode i) = .command i [] := by
  simpa using decodeEncodeRoundTrip maxPayload i [] hwf

/-- Settles O37: the words written out are the encodings of the commands they stand for. -/
theorem writtenOutCommandsDecode : Obligations.WrittenOutCommandsDecode :=
  ⟨decodeCommand_encode (i := .new 2) rfl, decodeCommand_encode (i := .update [0x78]) rfl,
    decodeCommand_encode (i := .final [0x61, 0x62, 0x63]) rfl, decodeCommand_encode (i := .hash 1 [0x61]) rfl⟩

/-- A text of ASCII characters stands for one byte a character, with the character's code (R54). -/
theorem assembleData_text_ascii {text : String} (h : ∀ c ∈ text.toList, c.toNat < 128) :
    ∃ bytes : List Byte, bytes.map BitVec.toNat = text.toList.map Char.toNat ∧
      assembleData (.text text) = some bytes := by
  refine ⟨text.toList.map fun c => BitVec.ofNat 8 c.toNat, ?_, ?_⟩
  · rw [List.map_map]
    refine List.map_congr_left fun c hc => ?_
    have hcode := h c hc
    simp only [Function.comp_apply, BitVec.toNat_ofNat]
    omega
  · rw [assembleData, if_pos]
    simpa using h

/-- A text with a character outside ASCII stands for no bytes (log entry 17). -/
theorem assembleData_text_other {text : String} (h : ∃ c ∈ text.toList, 128 ≤ c.toNat) :
    assembleData (.text text) = none := by
  obtain ⟨c, hc, hcode⟩ := h
  rw [assembleData, if_neg]
  intro hall
  have hascii : c.toNat < 128 := of_decide_eq_true (List.all_eq_true.1 hall c hc)
  omega

/-- Byte `i` of `ramp(n)` is `i mod 256` (R54). -/
theorem ramp_getElem? {n i : Nat} (h : i < n) : (ramp n)[i]? = some (BitVec.ofNat 8 (i % 256)) := by
  have hbyte : BitVec.ofNat 8 i = BitVec.ofNat 8 (i % 256) := BitVec.eq_of_toNat_eq (by simp)
  simp [ramp, h, hbyte]

/-- Settles O38: the defaults hold by definition, and an operand's bytes do not depend on the command it is written in. -/
theorem assemblerDefaults : Obligations.AssemblerDefaults := by
  refine ⟨rfl, rfl, fun _ => rfl, fun _ => rfl, fun _ _ => ⟨rfl, rfl, rfl⟩, by decide, fun text hascii => ?_,
    fun text hother => ?_, fun n => ⟨rfl, ramp_length n, fun i => ramp_getElem?⟩⟩
  · obtain ⟨bytes, hcodes, hbytes⟩ := assembleData_text_ascii hascii
    exact ⟨bytes, hcodes, by simp [assemble, hbytes], by simp [assemble, hbytes], by simp [assemble, hbytes]⟩
  · have hnone := assembleData_text_other hother
    exact ⟨by simp [assemble, hnone], by simp [assemble, hnone], by simp [assemble, hnone]⟩

@[simp] theorem encodeResponse_ok : encodeResponse .ok = [0x00] := rfl

@[simp] theorem encodeResponse_digest (d : Word) : encodeResponse (.digest d) = 0x01 :: leBytes 8 d.toNat := rfl

@[simp] theorem encodeResponse_err : encodeResponse (.err .alreadyFinalized) = [0x81] := rfl

/-- The digest is read back from the bytes of its response (R52). -/
theorem leValue_digest_bytes (d : Word) : leValue (leBytes 8 d.toNat) = d.toNat := by
  rw [leValue_leBytes]
  exact Nat.mod_eq_of_lt d.isLt

/-- Settles O31: the bytes by definition, and the status byte of each of the three responses. -/
theorem responseBytes : Obligations.ResponseBytes := by
  refine ⟨rfl, rfl, fun d => ⟨_, rfl, leBytes_length 8 _, leValue_digest_bytes d⟩, fun r => ?_⟩
  cases r with
  | ok => exact ⟨0x00, [], rfl, by decide, by decide⟩
  | digest d => exact ⟨0x01, _, rfl, by simp, by simp⟩
  | err kind =>
    cases kind
    exact ⟨0x81, [], rfl, by decide, by decide⟩

/-- Settles O32: the status byte tells the kind of response, and with it the number of bytes that follow. -/
theorem responsesReadInOneWay : Obligations.ResponsesReadInOneWay := by
  intro r r' xs ys h
  match r, r', h with
  | .ok, .ok, h => exact ⟨rfl, (List.cons.inj h).2⟩
  | .digest d, .digest d', h =>
    obtain ⟨hbytes, hrest⟩ := List.append_inj (List.cons.inj h).2 (by rw [leBytes_length, leBytes_length])
    have hvalue : d.toNat = d'.toNat := by rw [← leValue_digest_bytes d, hbytes, leValue_digest_bytes]
    exact ⟨congrArg Response.digest (BitVec.eq_of_toNat_eq hvalue), hrest⟩
  | .err .alreadyFinalized, .err .alreadyFinalized, h => exact ⟨rfl, (List.cons.inj h).2⟩
  | .ok, .digest _, h | .ok, .err .alreadyFinalized, h | .digest _, .ok, h | .digest _, .err .alreadyFinalized, h
  | .err .alreadyFinalized, .ok, h | .err .alreadyFinalized, .digest _, h => simp at h

end Sys2Proof.Machine
end

section
/-! What each command does to `T`, `fin` and the lengths of the buffers (R13, R22, R93, R108), as a function of lengths:
the phase diagram, the count of bytes, and control that depends on lengths only. -/

namespace Sys2Proof.Machine

open Host (Outcome)

variable (cfg : Config)

/-- FINAL reads and writes nothing of the state but the block, and appends one response (R52). -/
theorem finalCommand_reads_block_only (data : List Byte) (b : Block) :
    ∃ b' r, ∀ s : State, s.block = b → finalCommand cfg data s = .next ((s.setBlock b').respond r) := by
  cases hfin : b.fin with
  | true => exact ⟨b, .err .alreadyFinalized, fun s hs => hs ▸ finalCommand_closed cfg data (hs ▸ hfin)⟩
  | false =>
    obtain ⟨⟨b', d⟩, hclose, _⟩ := closeStream_runs cfg (b.fbuf ++ data) hfin
    exact ⟨b', .digest d, fun s hs => finalCommand_of_close cfg (hs ▸ hfin) (hs ▸ hclose)⟩

/-- A command reads and writes nothing of the state but the block, and appends one response (R52). -/
theorem runCommand_reads_block_only (i : Instr) (b : Block) :
    ∃ b' r, ∀ s : State, s.block = b → runCommand cfg i s = .next ((s.setBlock b').respond r) := by
  cases i with
  | new seed => exact ⟨openStream cfg seed b, .ok, fun s hs => hs ▸ rfl⟩
  | update data =>
    cases hfin : b.fin with
    | true => exact ⟨b, .err .alreadyFinalized, fun s hs => hs ▸ updateCommand_closed cfg data (hs ▸ hfin)⟩
    | false =>
      obtain ⟨b', hforward, _⟩ := forwardBlocks_runs cfg (b.fbuf ++ data) hfin
      exact ⟨b'.setFbuf ((b.fbuf ++ data).drop (wholeBlocks (b.fbuf ++ data).length)), .ok, fun s hs => by
        subst hs
        exact updateCommand_of_forward cfg hfin hforward⟩
  | final data => exact finalCommand_reads_block_only cfg data b
  | hash seed data =>
    obtain ⟨b', r, hrun⟩ := finalCommand_reads_block_only cfg data (openStream cfg seed b)
    exact ⟨b', r, fun s hs => by
      subst hs
      exact hrun (s.setBlock (openStream cfg seed s.block)) rfl⟩

/-- How many bytes forwarding absorbs when `tail` holds `tail` bytes and `bytes` bytes are in hand (R76, R98). -/
def forwardAbsorbed (tail bytes : Nat) : Nat :=
  if wholeBlocks bytes = 0 then 0 else updatePrefix (tail + wholeBlocks bytes)

theorem forwardAbsorbed_le (tail bytes : Nat) : forwardAbsorbed tail bytes ≤ tail + wholeBlocks bytes := by
  unfold forwardAbsorbed updatePrefix
  split <;> omega

/-- What forwarding does to `T` and the lengths of the buffers in phase OPEN. -/
theorem forwardBlocks_lengths (bytes : List Byte) {b : Block} (hfin : b.fin = false) :
    ∃ b', forwardBlocks cfg bytes b = .done b' ∧ b'.fin = false ∧ b'.fbuf = b.fbuf ∧
      b'.totalLength = b.totalLength + BitVec.ofNat 64 (forwardAbsorbed b.tail.length bytes.length) ∧
      b'.tail.length = b.tail.length + wholeBlocks bytes.length - forwardAbsorbed b.tail.length bytes.length := by
  obtain ⟨b', hrun, hopen, hfbuf, hnone, hsome⟩ := forwardBlocks_runs cfg bytes hfin
  refine ⟨b', hrun, hopen, hfbuf, ?_⟩
  rcases Nat.eq_zero_or_pos (wholeBlocks bytes.length) with hzero | hpos
  · simp [hnone hzero, hzero, forwardAbsorbed]
  · have hprefix : forwardAbsorbed b.tail.length bytes.length = updatePrefix (b.tail.length + wholeBlocks bytes.length) :=
      if_neg hpos.ne'
    have hlen : (b.tail ++ bytes.take (wholeBlocks bytes.length)).length = b.tail.length + wholeBlocks bytes.length := by
      rw [List.length_append, List.length_take_of_le (wholeBlocks_le _)]
    have hle := forwardAbsorbed_le b.tail.length bytes.length
    have hupdate := (hsome hpos).symm.trans (ssUpdate_open cfg hfin (take_wholeBlocks_mod bytes))
    rw [hlen, ← hprefix] at hupdate
    rw [Attempt.done.inj hupdate]
    constructor
    · rw [Block.setTail_totalLength, absorb_totalLength, List.length_take_of_le (by omega)]
    · rw [Block.setTail_tail, List.length_drop, hlen]

/-- What UPDATE does to `T` and the lengths of the buffers in phase OPEN (R98). -/
theorem updateCommand_lengths (data : List Byte) {s : State} (hfin : s.block.fin = false) :
    ∃ b, updateCommand cfg data s = .next ((s.setBlock b).respond .ok) ∧ b.fin = false ∧
      b.fbuf.length = (s.block.fbuf.length + data.length) % 64 ∧
      b.totalLength = s.block.totalLength +
        BitVec.ofNat 64 (forwardAbsorbed s.block.tail.length (s.block.fbuf.length + data.length)) ∧
      b.tail.length = s.block.tail.length + wholeBlocks (s.block.fbuf.length + data.length) -
        forwardAbsorbed s.block.tail.length (s.block.fbuf.length + data.length) := by
  obtain ⟨b, hforward, hopen, _, htotal, htail⟩ := forwardBlocks_lengths cfg (s.block.fbuf ++ data) hfin
  have hrest := length_drop_wholeBlocks (s.block.fbuf ++ data)
  rw [List.length_append] at htotal htail
  exact ⟨_, updateCommand_of_forward cfg hfin hforward, hopen, by simpa using hrest, htotal, htail⟩

/-- The peel takes no more than the unabsorbed bytes (R86). -/
theorem peelLength_le (t c : Nat) : peelLength t c ≤ c := by
  unfold peelLength
  split <;> omega

/-- SS.FINAL counts every byte of `tail` and of its operand (R93). -/
theorem ssFinal_lengths {buf : List Byte} {b : Block} (hfin : b.fin = false) (h : buf.length < 64) :
    ∃ r, ssFinal cfg buf b = .done r ∧ r.1.fin = true ∧ r.1.tail = [] ∧ r.1.fbuf = b.fbuf ∧
      r.1.totalLength = b.totalLength + BitVec.ofNat 64 (b.tail.length + buf.length) := by
  rcases ssFinal_cases cfg buf b with ⟨hclosed, _⟩ | ⟨_, hlong, _⟩ | ⟨_, _, hrun⟩
  · simp [hfin] at hclosed
  · omega
  · refine ⟨_, hrun, by simp, by simp, by simp, ?_⟩
    obtain ⟨_, _, _, _, _, htotal⟩ := finishStream_frame cfg
      ((b.tail ++ buf).drop (peelLength b.totalLength.toNat (b.tail ++ buf).length))
      ((b.tail ++ buf).drop ((b.tail ++ buf).length - 16))
      (absorb cfg ((b.tail ++ buf).take (peelLength b.totalLength.toNat (b.tail ++ buf).length)) (b.setTail []))
    have hpeel := peelLength_le b.totalLength.toNat (b.tail ++ buf).length
    rw [htotal, absorb_totalLength, Block.setTail_totalLength, BitVec.add_assoc, ← BitVec.ofNat_add,
      List.length_take_of_le hpeel, List.length_drop, Nat.add_sub_cancel' hpeel, List.length_append]

/-- What FINAL does to `T` and the buffers in phase OPEN (R99). -/
theorem finalCommand_lengths (data : List Byte) {s : State} (hfin : s.block.fin = false) :
    ∃ b d, finalCommand cfg data s = .next ((s.setBlock b).respond (.digest d)) ∧ b.fin = true ∧ b.tail = [] ∧
      b.fbuf = [] ∧ b.totalLength = s.block.totalLength +
        BitVec.ofNat 64 (s.block.tail.length + s.block.fbuf.length + data.length) := by
  obtain ⟨b, hforward, hopen, hfbuf, htotal, htail⟩ :=
    forwardBlocks_lengths cfg (s.block.fbuf ++ data) (b := s.block.setFbuf []) hfin
  obtain ⟨r, hr, hclosed, hempty, hkeep, hcount⟩ :=
    ssFinal_lengths cfg hopen (length_drop_wholeBlocks_lt (s.block.fbuf ++ data))
  refine ⟨r.1, r.2, finalCommand_of_close cfg hfin ((closeStream_of_forward cfg hforward).trans hr), hclosed, hempty,
    hkeep.trans hfbuf, ?_⟩
  have hle := forwardAbsorbed_le s.block.tail.length (s.block.fbuf ++ data).length
  have hwhole := wholeBlocks_le (s.block.fbuf ++ data).length
  rw [hcount, htotal, htail, BitVec.add_assoc, ← BitVec.ofNat_add, List.length_drop]
  simp only [Block.setFbuf_tail, Block.setFbuf_totalLength, List.length_append] at hle hwhole ⊢
  congr 2
  omega

/-- Settles O25: UPDATE moves bytes from `fbuf` to `tail` and from there to `T`; FINAL moves them all to `T`. -/
theorem everyByteIsCounted : Obligations.EveryByteIsCounted := by
  intro data s t hfin
  simp only [exec_eq_runCommand]
  constructor
  · intro hrun
    obtain ⟨b, hupdate, _, hfbuf, htotal, htail⟩ := updateCommand_lengths specConfig data hfin
    obtain rfl := Outcome.next.inj (hupdate.symm.trans hrun)
    have hle := forwardAbsorbed_le s.block.tail.length (s.block.fbuf.length + data.length)
    simp only [State.respond_block, State.setBlock_block]
    rw [htotal, htail, hfbuf, BitVec.add_assoc, ← BitVec.ofNat_add]
    congr 2
    unfold wholeBlocks at hle ⊢
    omega
  · intro hrun
    obtain ⟨b, d, hfinal, _, _, _, htotal⟩ := finalCommand_lengths specConfig data hfin
    obtain rfl := Outcome.next.inj (hfinal.symm.trans hrun)
    exact htotal

/-- Two commands that complete with blocks of one shape and answers of one length (R108). -/
def EndAlike (s s' : State) (o o' : Outcome State Fault Refusal) : Prop :=
  ∃ b b' r r', o = .next ((s.setBlock b).respond r) ∧ o' = .next ((s'.setBlock b').respond r') ∧ SameShape b b' ∧
    (encodeResponse r).length = (encodeResponse r').length

theorem updateCommand_endAlike {data data' : List Byte} {s s' : State} (hlen : data.length = data'.length)
    (hshape : SameShape s.block s'.block) : EndAlike s s' (updateCommand cfg data s) (updateCommand cfg data' s') := by
  have ⟨htotal, hfin, htail, hfbuf⟩ := hshape
  cases hopen : s.block.fin with
  | true =>
    exact ⟨_, _, _, _, updateCommand_closed cfg data hopen, updateCommand_closed cfg data' (hfin ▸ hopen), hshape, rfl⟩
  | false =>
    obtain ⟨b, hrun, hb, hbfbuf, hbtotal, hbtail⟩ := updateCommand_lengths cfg data hopen
    obtain ⟨b', hrun', hb', hbfbuf', hbtotal', hbtail'⟩ := updateCommand_lengths cfg data' (hfin ▸ hopen)
    rw [← hfbuf, ← hlen] at hbfbuf'
    rw [← htotal, ← htail, ← hfbuf, ← hlen] at hbtotal'
    rw [← htail, ← hfbuf, ← hlen] at hbtail'
    exact ⟨b, b', .ok, .ok, hrun, hrun', ⟨hbtotal.trans hbtotal'.symm, hb.trans hb'.symm, hbtail.trans hbtail'.symm,
      hbfbuf.trans hbfbuf'.symm⟩, rfl⟩

theorem finalCommand_endAlike {data data' : List Byte} {s s' : State} (hlen : data.length = data'.length)
    (hshape : SameShape s.block s'.block) : EndAlike s s' (finalCommand cfg data s) (finalCommand cfg data' s') := by
  have ⟨htotal, hfin, htail, hfbuf⟩ := hshape
  cases hopen : s.block.fin with
  | true =>
    exact ⟨_, _, _, _, finalCommand_closed cfg data hopen, finalCommand_closed cfg data' (hfin ▸ hopen), hshape, rfl⟩
  | false =>
    obtain ⟨b, d, hrun, hb, hbtail, hbfbuf, hbtotal⟩ := finalCommand_lengths cfg data hopen
    obtain ⟨b', d', hrun', hb', hbtail', hbfbuf', hbtotal'⟩ := finalCommand_lengths cfg data' (hfin ▸ hopen)
    rw [← htotal, ← htail, ← hfbuf, ← hlen] at hbtotal'
    exact ⟨b, b', .digest d, .digest d', hrun, hrun', ⟨hbtotal.trans hbtotal'.symm, hb.trans hb'.symm,
      by rw [hbtail, hbtail'], by rw [hbfbuf, hbfbuf']⟩, by simp⟩

/-- Commands of one form, on blocks of one shape, end alike (R108). -/
theorem runCommand_endAlike {i i' : Instr} {s s' : State} (hform : SameForm i i') (hshape : SameShape s.block s'.block) :
    EndAlike s s' (runCommand cfg i s) (runCommand cfg i' s') := by
  match i, i', hform with
  | .new seed, .new seed', _ => exact ⟨_, _, .ok, .ok, rfl, rfl, ⟨rfl, rfl, rfl, rfl⟩, rfl⟩
  | .update _, .update _, hlen => exact updateCommand_endAlike cfg hlen hshape
  | .final _, .final _, hlen => exact finalCommand_endAlike cfg hlen hshape
  | .hash seed data, .hash seed' data', hlen =>
    exact finalCommand_endAlike cfg (s := s.setBlock (openStream cfg seed s.block))
      (s' := s'.setBlock (openStream cfg seed' s'.block)) hlen ⟨rfl, rfl, rfl, rfl⟩

/-- Settles O26: commands of one form end alike on blocks of one shape, and each appends its one answer. -/
theorem controlDependsOnLengthsOnly : Obligations.ControlDependsOnLengthsOnly := by
  intro cfg i i' s s' t hform hshape hrun
  obtain ⟨b, b', r, r', hend, hend', hblocks, hlen⟩ := runCommand_endAlike cfg hform hshape
  obtain rfl := Outcome.next.inj (hend.symm.trans hrun)
  refine ⟨_, hend', hblocks, ?_⟩
  simp only [State.respond_responses, State.setBlock_responses, List.length_append]
  omega

theorem Block.phase_open_iff (b : Block) : b.phase = .streamOpen ↔ b.fin = false := by
  cases h : b.fin <;> simp [Block.phase, h]

/-- Settles O24: a row of the diagram is a command in a phase, and each completes as the row says. -/
theorem phaseDiagramHolds : Obligations.PhaseDiagramHolds := by
  intro i s
  rw [exec_eq_runCommand]
  have hhash (seed : Word) (data : List Byte) : ∃ b d, hashCommand specConfig seed data s =
      .next ((s.setBlock b).respond (.digest d)) ∧ b.phase = .closed := by
    obtain ⟨b, d, hrun, hclosed, _⟩ := hashCommand_runs specConfig seed data s
    exact ⟨b, d, hrun, b.phase_closed_iff.2 hclosed⟩
  cases hfin : s.block.fin with
  | true =>
    rw [s.block.phase_closed_iff.2 hfin]
    cases i with
    | new seed => exact ⟨_, .ok, rfl, rfl, rfl, rfl, by simp⟩
    | update data =>
      exact ⟨_, _, updateCommand_closed specConfig data hfin, s.block.phase_closed_iff.2 hfin, rfl, rfl, fun _ => rfl⟩
    | final data =>
      exact ⟨_, _, finalCommand_closed specConfig data hfin, s.block.phase_closed_iff.2 hfin, rfl, rfl, fun _ => rfl⟩
    | hash seed data =>
      obtain ⟨b, d, hrun, hclosed⟩ := hhash seed data
      exact ⟨_, .digest d, hrun, hclosed, rfl, ⟨d, rfl⟩, by simp⟩
  | false =>
    rw [s.block.phase_open_iff.2 hfin]
    cases i with
    | new seed => exact ⟨_, .ok, rfl, rfl, rfl, rfl, by simp⟩
    | update data =>
      obtain ⟨b, hrun, hopen, _⟩ := updateCommand_lengths specConfig data hfin
      exact ⟨_, .ok, hrun, b.phase_open_iff.2 hopen, rfl, rfl, by simp⟩
    | final data =>
      obtain ⟨b, d, hrun, hclosed, _⟩ := finalCommand_open specConfig data hfin
      exact ⟨_, .digest d, hrun, b.phase_closed_iff.2 hclosed, rfl, ⟨d, rfl⟩, by simp⟩
    | hash seed data =>
      obtain ⟨b, d, hrun, hclosed⟩ := hhash seed data
      exact ⟨_, .digest d, hrun, hclosed, rfl, ⟨d, rfl⟩, by simp⟩

/-- Settles O20: the error's one byte is the response 81, which no other response gives. -/
theorem alreadyFinalizedIsTheOnlyError : Obligations.AlreadyFinalizedIsTheOnlyError := by
  refine ⟨fun data s hclosed => ⟨exec_closed hclosed (.inl ⟨data, rfl⟩), exec_closed hclosed (.inr ⟨data, rfl⟩)⟩,
    fun i s t hrun hanswer => ?_⟩
  obtain ⟨b, r, hends, herror⟩ := runCommand_answers specConfig i s
  obtain rfl := Outcome.next.inj (hends.symm.trans ((exec_eq_runCommand i s).symm.trans hrun))
  have hbytes : encodeResponse r = encodeResponse (.err .alreadyFinalized) := List.append_cancel_left hanswer
  obtain ⟨hr, _⟩ := responsesReadInOneWay r (.err .alreadyFinalized) [] [] (by rw [hbytes])
  exact herror.1 hr

/-- Settles O13: opening a stream writes the whole block. -/
theorem newOpensAStream : Obligations.NewOpensAStream := by
  intro seed s
  rw [exec_eq_runCommand]
  exact congrArg (fun b => Outcome.next ((s.setBlock b).respond .ok)) (openStream_eq specConfig seed s.block)

/-- Settles O19: both commands open a stream first, which writes the whole block. -/
theorem newAndHashForgetTheOldStream : Obligations.NewAndHashForgetTheOldStream := by
  intro seed data b s
  simp only [exec_eq_runCommand]
  exact ⟨newCommand_setBlock specConfig seed s b, hashCommand_setBlock specConfig seed data s b⟩

/-- Settles O10: SS.UPDATE's tests come in order, and of one step or none it absorbs nothing. -/
theorem ssUpdateOutsideItsContract : Obligations.SsUpdateOutsideItsContract := by
  refine fun cfg buf b => ⟨ssUpdate_closed cfg buf, fun hfin houtside => ?_, fun hfin htail => ?_⟩
  · rcases ssUpdate_cases cfg buf b with ⟨hclosed, _⟩ | ⟨_, _, hrun⟩ | ⟨_, hinside, _⟩
    · simp [hfin] at hclosed
    · exact hrun
    · exact absurd hinside houtside
  · have hlen : b.tail.length = 0 ∨ b.tail.length = 16 := htail.imp_left List.length_eq_zero_iff.2
    have hprefix : updatePrefix b.tail.length = 0 := by unfold updatePrefix; omega
    rw [ssUpdate_open cfg hfin rfl, List.append_nil, hprefix, List.take_zero, List.drop_zero, absorb_nil]
    rfl

end Sys2Proof.Machine
end

section
/-! Steps (R40, R47, R51, R126): what is fetched, the order of commands on the channel, resets, and the legal block. -/

namespace Sys2Proof.Machine

open Host (Outcome)

theorem decodePayload_ne_endOfStream (maxPayload : Nat) (cmd : List Byte) (header len : Nat)
    (build : List Byte → Instr) : decodePayload maxPayload cmd header len build ≠ .endOfStream := by
  rcases decodePayload_cases maxPayload cmd header len build with ⟨_, h⟩ | ⟨_, _, h⟩ | ⟨_, _, h⟩ <;> simp [h]

/-- The channel ends between commands exactly when it is empty (log entry 2). -/
theorem decodeCommand_eq_endOfStream (maxPayload : Nat) (cmd : List Byte) :
    decodeCommand maxPayload cmd = .endOfStream ↔ cmd = [] := by
  cases cmd with
  | nil => exact ⟨fun _ => rfl, fun _ => rfl⟩
  | cons op tail =>
    refine iff_of_false ?_ (List.cons_ne_nil op tail)
    rcases decodeCommand_cases maxPayload op tail with rfl | rfl | rfl | rfl | hunknown
    · rw [decodeCommand_new, decodeFormatN]
      split <;> simp
    · rw [decodeCommand_update, decodeFormatB]
      split <;> simp [decodePayload_ne_endOfStream]
    · rw [decodeCommand_final, decodeFormatB]
      split <;> simp [decodePayload_ne_endOfStream]
    · rw [decodeCommand_hash, decodeFormatH]
      split <;> simp [decodePayload_ne_endOfStream]
    · simp [hunknown]

/-- What a step that goes on did: it took a reset, found no command, or ran one on the consumed channel. -/
theorem step_eq_next {s t : State} (h : step s = .next t) :
    (s.resetRequest = true ∧ t = takeReset s) ∨
    (s.resetRequest = false ∧ s.commands = [] ∧ t = s) ∨
    (s.resetRequest = false ∧ ∃ i rest, decodeCommand specConfig.maxPayload s.commands = .command i rest ∧
      runCommand specConfig i (s.setCommands rest) = .next t) := by
  rcases step_cases s with ⟨hreset, hrun⟩ | ⟨hgo, hidle, hrun⟩ | ⟨hgo, i, rest, hcommand, hrun⟩ | ⟨_, _, _, hrun⟩ |
    ⟨_, _, hrun⟩ | ⟨_, _, _, hrun⟩
  · exact .inl ⟨hreset, (Outcome.next.inj (hrun.symm.trans h)).symm⟩
  · exact .inr (.inl ⟨hgo, (decodeCommand_eq_endOfStream _ _).1 hidle, (Outcome.next.inj (hrun.symm.trans h)).symm⟩)
  · exact .inr (.inr ⟨hgo, i, rest, hcommand, (exec_eq_runCommand i _).symm.trans (hrun.symm.trans h)⟩)
  · simp [hrun] at h
  · simp [hrun] at h
  · simp [hrun] at h

/-- Settles O39: with no reset in its way, a step dispatches what it fetched. -/
theorem stepRunsTheDecodedCommand : Obligations.StepRunsTheDecodedCommand := by
  intro s i rest hgo hdecoded
  have hfetch : fetch s = .command i rest := hdecoded
  rw [step, hfetch, if_neg (by simp [hgo])]
  rfl

/-- Settles O40: a step refuses by name what the decoder refuses. -/
theorem stepRefusesUndecodableBytes : Obligations.StepRefusesUndecodableBytes := by
  refine fun s hgo => ⟨fun op rest hbytes hop => ?_, fun i k hbytes hwf hpos hk => ?_⟩
  · have hfetch : fetch s = .unknownOpcode op := by rw [fetch, hbytes, decodeCommand_unknownOpcode _ _ hop]
    simp [step, hgo, hfetch]
  · have hfetch : fetch s = .truncated := by rw [fetch, hbytes, decodeCommand_encode_take hwf hpos hk]
    simp [step, hgo, hfetch]

/-- A step that finds a command it can be sent runs it and leaves the bytes after it (R40, R47). -/
theorem step_encode {i : Instr} {rest : List Byte} {s : State} (hgo : s.resetRequest = false)
    (hwf : i.wellFormed specConfig.maxPayload = true) (hbytes : s.commands = encode i ++ rest) :
    step s = runCommand specConfig i (s.setCommands rest) := by
  have hdecoded : decodeCommand specConfig.maxPayload s.commands = .command i rest := by
    rw [hbytes, decodeEncodeRoundTrip _ i rest hwf]
  exact (stepRunsTheDecodedCommand s i rest hgo hdecoded).trans (exec_eq_runCommand i _)

/-- A run's first step hands its state to the steps after it. -/
theorem run_succ_of_next {n : Nat} {s t : State} (h : step s = .next t) :
    Host.Core.run Sys2Proof.core (n + 1) s = Host.Core.run Sys2Proof.core n t := by
  have hcore : Sys2Proof.core.step s = .next t := h
  simp only [Host.Core.run, hcore]

/-- Settles O41: by induction on the commands; a command does not read the channel, so consuming it first or last is one. -/
theorem commandStreamRunsInOrder : Obligations.CommandStreamRunsInOrder := by
  intro is rest s
  induction is generalizing s with
  | nil =>
    intro _ _ hbytes
    have hrest : s.commands = rest := hbytes
    subst hrest
    rfl
  | cons i is ih =>
    intro hgo hwf hbytes
    obtain ⟨hwf_first, hwf_rest⟩ := List.forall_mem_cons.1 hwf
    obtain ⟨b, r, hrun⟩ := runCommand_reads_block_only specConfig i s.block
    rw [List.flatMap_cons, List.append_assoc] at hbytes
    have hstep := (step_encode hgo hwf_first hbytes).trans (hrun _ rfl)
    rw [List.length_cons, run_succ_of_next hstep, runCommands_cons_of_next specConfig (hrun { s with commands := rest } rfl)]
    exact ih _ hgo hwf_rest rfl

/-- Settles O42: a reset and an empty channel answer nothing; a command that ran appended its one response. -/
theorem oneResponsePerCommand : Obligations.OneResponsePerCommand := by
  intro s t h
  rcases step_eq_next h with ⟨hreset, rfl⟩ | ⟨_, hempty, rfl⟩ | ⟨_, i, rest, hdecoded, hrun⟩
  · exact .inl ⟨rfl, rfl, .inl hreset⟩
  · exact .inl ⟨rfl, rfl, .inr hempty⟩
  · obtain ⟨b, r, hends, _⟩ := runCommand_answers specConfig i (s.setCommands rest)
    obtain rfl := Outcome.next.inj (hends.symm.trans hrun)
    exact .inr ⟨i, rest, r, hdecoded, rfl, rfl⟩

/-- Settles O43: a step that takes no reset and runs no command leaves the state. -/
theorem onlyResetsAndCommandsChangeTheBlock : Obligations.OnlyResetsAndCommandsChangeTheBlock := by
  intro s t h hchanged
  rcases step_eq_next h with ⟨hreset, rfl⟩ | ⟨_, _, rfl⟩ | ⟨hgo, i, rest, hdecoded, _⟩
  · exact .inl ⟨hreset, rfl⟩
  · exact absurd rfl hchanged
  · exact .inr ⟨hgo, i, rest, hdecoded⟩

/-- Settles O44: the reset block and the constants of the running machine. -/
theorem resetState : Obligations.ResetState :=
  ⟨rfl, rfl, rfl, rfl, rfl, rfl, rfl⟩

/-- Settles O45: the reset block is CLOSED, where UPDATE and FINAL answer the error. -/
theorem resetAbandonsTheStream : Obligations.ResetAbandonsTheStream := by
  intro s hreset
  have hstep : step s = .next (takeReset s) := by simp [step, hreset]
  have hclosed : (takeReset s).block.fin = true := rfl
  exact ⟨_, hstep, rfl, rfl, rfl, rfl, rfl, rfl, fun data =>
    ⟨exec_closed hclosed (.inl ⟨data, rfl⟩), exec_closed hclosed (.inr ⟨data, rfl⟩)⟩⟩

/-- Settles O46: on an empty channel no command has begun. -/
theorem idleBlockHoldsItsState : Obligations.IdleBlockHoldsItsState := by
  intro s hgo hempty
  have hfetch : fetch s = .endOfStream := (decodeCommand_eq_endOfStream _ _).2 hempty
  simp [step, hgo, hfetch]

variable {cfg : Config}

/-- A CLOSED block with empty buffers is legal (R29, R99). -/
theorem Block.Legal.of_closed {b : Block} (hclosed : b.fin = true) (htail : b.tail = []) (hfbuf : b.fbuf = []) :
    b.Legal cfg where
  fbuf_bound := by simp [hfbuf]
  tail_bound := .inl htail
  closed_empty := fun _ => ⟨htail, hfbuf⟩
  fresh := fun hopen => by simp [hclosed] at hopen
  counted := fun hopen => by simp [hclosed] at hopen

/-- The opened stream is legal (R79). -/
theorem openStream_legal (seed : Word) (b : Block) : (openStream cfg seed b).Legal cfg where
  fbuf_bound := Nat.zero_le _
  tail_bound := .inl rfl
  closed_empty := by simp [openStream_eq]
  fresh := fun _ _ => ⟨rfl, seed, rfl, rfl, rfl⟩
  counted := fun _ htail => absurd rfl htail

/-- Growing `fbuf` within its bound keeps an open block legal (R19). -/
theorem Block.Legal.setFbuf {b : Block} (hlegal : b.Legal cfg) (hfin : b.fin = false) {bytes : List Byte}
    (h : bytes.length < 64) : (b.setFbuf bytes).Legal cfg where
  fbuf_bound := Nat.le_of_lt_succ h
  tail_bound := hlegal.tail_bound
  closed_empty := fun hclosed => by simp [hfin] at hclosed
  fresh := hlegal.fresh
  counted := hlegal.counted

/-- The tail of a legal block is no step or one. -/
theorem Block.Legal.tail_length {b : Block} (hlegal : b.Legal cfg) : b.tail.length = 0 ∨ b.tail.length = 16 :=
  hlegal.tail_bound.imp_left List.length_eq_zero_iff.2

/-- On a legal open block the unabsorbed bytes complete a block in the counter (R14). -/
theorem Block.Legal.total_add_tail {b : Block} (hlegal : b.Legal cfg) (hfin : b.fin = false) :
    (b.totalLength.toNat + b.tail.length) % 64 = 0 := by
  rcases hlegal.tail_bound with htail | htail
  · obtain ⟨hzero, _⟩ := hlegal.fresh hfin htail
    simp [htail, hzero]
  · have hlen : b.tail.length = 16 := htail
    have hcount := hlegal.counted hfin (by rintro hnil; simp [hnil] at hlen)
    omega

/-- UPDATE on a legal open block that completes a block of 64 bytes: all but the last step forwarded are counted, that step
is in `tail`, and the rest is in `fbuf` (R76, R98). -/
theorem updateCommand_legal_wholeBlocks {data : List Byte} {s : State} (hfin : s.block.fin = false)
    (hlegal : s.block.Legal cfg) {bytes : List Byte} (hbytes : bytes = s.block.fbuf ++ data) (hlong : 64 ≤ bytes.length) :
    ∃ b, updateCommand cfg data s = .next ((s.setBlock b).respond .ok) ∧ b.fin = false ∧
      b.tail = (bytes.take (wholeBlocks bytes.length)).drop (wholeBlocks bytes.length - 16) ∧
      b.fbuf = bytes.drop (wholeBlocks bytes.length) ∧
      b.totalLength = s.block.totalLength +
        BitVec.ofNat 64 (s.block.tail.length + wholeBlocks bytes.length - 16) := by
  have hpos : 64 ≤ wholeBlocks bytes.length := by unfold wholeBlocks; omega
  have hwhole := wholeBlocks_mod bytes.length
  have hfront : (bytes.take (wholeBlocks bytes.length)).length = wholeBlocks bytes.length :=
    List.length_take_of_le (wholeBlocks_le _)
  have hlen : (s.block.tail ++ bytes.take (wholeBlocks bytes.length)).length =
      s.block.tail.length + wholeBlocks bytes.length := by rw [List.length_append, hfront]
  have htail := hlegal.tail_length
  have hprefix := updatePrefix_of_whole_steps
    (len := (s.block.tail ++ bytes.take (wholeBlocks bytes.length)).length) (by omega)
  refine ⟨_, updateCommand_wholeBlocks cfg hfin hbytes (by omega) rfl, by simp [hfin], ?_, rfl, ?_⟩
  · rw [hprefix, Block.setFbuf_tail, Block.setTail_tail, drop_append_length_sub _ _ (by omega), hfront]
  · rw [hprefix, Block.setFbuf_totalLength, Block.setTail_totalLength, absorb_totalLength,
      List.length_take_of_le (Nat.sub_le _ _), hlen]

/-- Settles O15: a block is completed or not, and a legal block has whole steps to forward. -/
theorem updateSplitsTheMessage : Obligations.UpdateSplitsTheMessage := by
  intro data s hfin hlegal
  simp only [exec_eq_runCommand, ← List.length_append]
  rcases Nat.lt_or_ge (s.block.fbuf ++ data).length 64 with hshort | hlong
  · have hrun := updateCommand_noBlock specConfig hfin (data := data) (by unfold wholeBlocks; omega)
    exact ⟨_, hrun, hfin, updateCommand_fbuf_length specConfig hfin hrun, fun _ => rfl, fun hlong => by omega⟩
  · obtain ⟨b, hrun, hopen, htail, hfbuf, htotal⟩ := updateCommand_legal_wholeBlocks hfin hlegal rfl hlong
    exact ⟨_, hrun, hopen, updateCommand_fbuf_length specConfig hfin hrun, fun hshort => by omega,
      fun _ => ⟨htail, hfbuf, htotal⟩⟩

/-- UPDATE keeps an open block legal (R98). -/
theorem updateCommand_legal {data : List Byte} {s t : State} (hfin : s.block.fin = false) (hlegal : s.block.Legal cfg)
    (hrun : updateCommand cfg data s = .next t) : t.block.Legal cfg := by
  rcases Nat.lt_or_ge (s.block.fbuf ++ data).length 64 with hshort | hlong
  · have hgrow := updateCommand_noBlock cfg hfin (data := data) (by unfold wholeBlocks; omega)
    obtain rfl := Outcome.next.inj (hgrow.symm.trans hrun)
    exact hlegal.setFbuf hfin hshort
  · obtain ⟨b, hforward, hopen, htail, hfbuf, htotal⟩ := updateCommand_legal_wholeBlocks hfin hlegal rfl hlong
    obtain rfl := Outcome.next.inj (hforward.symm.trans hrun)
    have hpos : 64 ≤ wholeBlocks (s.block.fbuf ++ data).length := by unfold wholeBlocks; omega
    have hle := wholeBlocks_le (s.block.fbuf ++ data).length
    have hlen : b.tail.length = 16 := by
      rw [htail, List.length_drop, List.length_take]
      omega
    have hwhole := wholeBlocks_mod (s.block.fbuf ++ data).length
    have hcount := hlegal.total_add_tail hfin
    exact {
      fbuf_bound := by
        have hrest := length_drop_wholeBlocks_lt (s.block.fbuf ++ data)
        rw [← hfbuf] at hrest
        exact Nat.le_of_lt_succ hrest
      tail_bound := .inr hlen
      closed_empty := fun hclosed => by simp [hopen] at hclosed
      fresh := fun _ hnil => by
        replace hnil : b.tail = [] := hnil
        simp [hnil] at hlen
      counted := fun _ _ => by
        simp only [State.respond_block, State.setBlock_block]
        rw [htotal, BitVec.toNat_add, BitVec.toNat_ofNat]
        omega }

/-- Every command keeps the block legal. -/
theorem runCommand_legal {i : Instr} {s t : State} (hlegal : s.block.Legal cfg) (hrun : runCommand cfg i s = .next t) :
    t.block.Legal cfg := by
  cases i with
  | new seed =>
    obtain rfl := Outcome.next.inj hrun
    exact openStream_legal seed s.block
  | update data =>
    cases hfin : s.block.fin with
    | true =>
      obtain rfl := Outcome.next.inj ((updateCommand_closed cfg data hfin).symm.trans hrun)
      exact hlegal
    | false => exact updateCommand_legal hfin hlegal hrun
  | final data =>
    cases hfin : s.block.fin with
    | true =>
      obtain rfl := Outcome.next.inj ((finalCommand_closed cfg data hfin).symm.trans hrun)
      exact hlegal
    | false =>
      obtain ⟨b, d, hfinal, hclosed, htail, hfbuf⟩ := finalCommand_open cfg data hfin
      obtain rfl := Outcome.next.inj (hfinal.symm.trans hrun)
      exact .of_closed hclosed htail hfbuf
  | hash seed data =>
    obtain ⟨b, d, hhash, hclosed, htail, hfbuf⟩ := hashCommand_runs cfg seed data s
    obtain rfl := Outcome.next.inj (hhash.symm.trans hrun)
    exact .of_closed hclosed htail hfbuf

/-- Settles O48: the reset block is CLOSED with empty buffers. -/
theorem resetBlockIsLegal : Obligations.ResetBlockIsLegal :=
  .of_closed rfl rfl rfl

/-- Settles O47: a step takes a reset, holds the state, or runs a command. -/
theorem stepKeepsTheBlockLegal : Obligations.StepKeepsTheBlockLegal := by
  intro s t hlegal h
  rcases step_eq_next h with ⟨_, rfl⟩ | ⟨_, _, rfl⟩ | ⟨_, i, rest, _, hrun⟩
  · exact resetBlockIsLegal
  · exact hlegal
  · exact runCommand_legal (s := s.setCommands rest) hlegal hrun

end Sys2Proof.Machine
end

section
/-! Absorption in pieces (R17, R68, R72): ABSORB resumes at the lane of `T`, so that two ABSORBs of whole steps are one. -/

namespace Sys2Proof.Machine

variable (cfg : Config)

/-- The lane of `T`, a count of whole steps, is the lane of its number of steps (R17). -/
theorem laneOf_steps_of_total (t j : Nat) : laneOf (t % 48 / 16 + j) = laneOf (t / 16 + j) := by
  rw [← laneOf_mod (t % 48 / 16 + j), ← laneOf_mod (t / 16 + j)]
  congr 1
  omega

/-- ABSORB of whole steps takes step `j` in lane `(T div 16 + j) mod 3` (R17, R68). -/
theorem absorb_eq_foldl_from_total {buf : List Byte} (hbuf : buf.length % 16 = 0) (b : Block) :
    absorb cfg buf b =
      ((List.range (buf.length / 16)).foldl (absorbStep cfg buf (b.totalLength.toNat / 16)) b).setTotal
        (b.totalLength + BitVec.ofNat 64 buf.length) := by
  have hstep : absorbStep cfg buf (b.totalLength.toNat % 48 / 16) = absorbStep cfg buf (b.totalLength.toNat / 16) := by
    funext x j
    rw [absorbStep, laneOf_steps_of_total, absorbStep]
  rw [absorb_eq_foldl cfg (Nat.mul_div_cancel' (Nat.dvd_of_mod_eq_zero hbuf)).symm b, hstep]

/-- A step reads an accumulator and writes it, and so it does not matter when `T` is set. -/
theorem absorbStep_setTotal (buf : List Byte) (first : Nat) (b : Block) (t : Word) (j : Nat) :
    absorbStep cfg buf first (b.setTotal t) j = (absorbStep cfg buf first b j).setTotal t := by
  unfold absorbStep
  cases laneOf (first + j) <;> rfl

theorem foldl_absorbStep_setTotal (buf : List Byte) (first : Nat) (js : List Nat) (b : Block) (t : Word) :
    js.foldl (absorbStep cfg buf first) (b.setTotal t) = (js.foldl (absorbStep cfg buf first) b).setTotal t :=
  List.foldl_hom (fun b : Block => b.setTotal t) fun b j => absorbStep_setTotal cfg buf first b t j

/-- The steps that lie in the first part of a sequence read that part only. -/
theorem absorbStep_append_left {x : List Byte} (y : List Byte) (first : Nat) (b : Block) {j : Nat}
    (hj : 16 * j + 16 ≤ x.length) : absorbStep cfg (x ++ y) first b j = absorbStep cfg x first b j := by
  rw [absorbStep, memRead_append_left x y (by omega), memRead_append_left x y (by omega), absorbStep]

/-- The steps after the first part of a sequence are those of the second, from the lane that comes next. -/
theorem absorbStep_append_right {x : List Byte} (y : List Byte) {k : Nat} (hx : x.length = 16 * k) (first : Nat)
    (b : Block) (j : Nat) : absorbStep cfg (x ++ y) first b (k + j) = absorbStep cfg y (first + k) b j := by
  rw [absorbStep, memRead_append_right x y _ (by omega), memRead_append_right x y _ (by omega), absorbStep,
    Nat.add_assoc, show 16 * (k + j) - x.length = 16 * j by omega, show 16 * (k + j) + 8 - x.length = 16 * j + 8 by omega]

/-- The steps of a concatenation of whole steps are the steps of the first part, then those of the second. -/
theorem foldl_absorbStep_append {x y : List Byte} {k m : Nat} (hx : x.length = 16 * k) (first : Nat) (b : Block) :
    (List.range (k + m)).foldl (absorbStep cfg (x ++ y) first) b =
      (List.range m).foldl (absorbStep cfg y (first + k)) ((List.range k).foldl (absorbStep cfg x first) b) := by
  have hleft : (List.range k).foldl (absorbStep cfg (x ++ y) first) b =
      (List.range k).foldl (absorbStep cfg x first) b :=
    List.foldl_ext _ _ b fun b j hj => absorbStep_append_left cfg y first b (by have := List.mem_range.1 hj; omega)
  rw [List.range_add, List.foldl_append, hleft, List.foldl_map]
  exact List.foldl_ext _ _ _ fun b j _ => absorbStep_append_right cfg y hx first b j

/-- Settles O7: the second ABSORB starts in the lane after the last step of the first, since `T` counts whole steps. -/
theorem absorbComposes : Obligations.AbsorbComposes := by
  intro cfg x y b htotal hx hy hbound
  have hxy : (x ++ y).length % 16 = 0 := by rw [List.length_append]; omega
  have hsteps : (x ++ y).length / 16 = x.length / 16 + y.length / 16 := by rw [List.length_append]; omega
  have hnext : (b.totalLength + BitVec.ofNat 64 x.length).toNat / 16 = b.totalLength.toNat / 16 + x.length / 16 := by
    rw [BitVec.toNat_add, BitVec.toNat_ofNat]
    omega
  rw [absorb_eq_foldl_from_total cfg hxy, absorb_eq_foldl_from_total cfg hx, absorb_eq_foldl_from_total cfg hy, hsteps,
    foldl_absorbStep_append cfg (by omega), Block.setTotal_totalLength, hnext, foldl_absorbStep_setTotal,
    List.length_append, BitVec.ofNat_add, ← BitVec.add_assoc]
  rfl

/-- ABSORBs of whole steps one after another are one ABSORB of their concatenation (R72). -/
theorem foldl_absorb_eq_absorb_flatten {bufs : List (List Byte)} (hbufs : ∀ buf ∈ bufs, buf.length % 16 = 0) {b : Block}
    (htotal : b.totalLength.toNat % 16 = 0) (hbound : b.totalLength.toNat + bufs.flatten.length < 2 ^ 64) :
    bufs.foldl (fun x buf => absorb cfg buf x) b = absorb cfg bufs.flatten b ∧ bufs.flatten.length % 16 = 0 := by
  induction bufs generalizing b with
  | nil => exact ⟨(absorb_nil cfg b).symm, rfl⟩
  | cons x rest ih =>
    obtain ⟨hx, hrest⟩ := List.forall_mem_cons.1 hbufs
    rw [List.flatten_cons, List.length_append] at hbound
    have hnext : (absorb cfg x b).totalLength.toNat = b.totalLength.toNat + x.length := by
      rw [absorb_totalLength, BitVec.toNat_add, BitVec.toNat_ofNat]
      omega
    obtain ⟨hfold, hwhole⟩ := ih hrest (b := absorb cfg x b) (by omega) (by omega)
    rw [List.foldl_cons, hfold, List.flatten_cons, List.length_append]
    exact ⟨(absorbComposes cfg x _ b htotal hx hwhole (by omega)).symm, by omega⟩

/-- The lanes written out by the index modulo 3. -/
theorem laneOf_eq (k : Nat) :
    laneOf k = if k % 3 = 0 then Lane.lane0 else if k % 3 = 1 then Lane.lane1 else Lane.lane2 := by
  unfold laneOf
  split
  · simp [*]
  · simp [*]
  · rw [if_neg (by assumption), if_neg (by assumption)]

/-- Settles O6: the lane of `T` is that of its number of steps, and divided ABSORBs are one ABSORB from `T = 0`. -/
theorem absorptionResumesAtTheLaneOfT : Obligations.AbsorptionResumesAtTheLaneOfT := by
  unfold Obligations.AbsorptionResumesAtTheLaneOfT
  intro inLane stepsFrom cfg b
  have hlane : ∀ k, inLane k = laneOf k := fun k => (laneOf_eq k).symm
  have hsteps : ∀ first msg, stepsFrom cfg first msg b =
      (List.range (msg.length / 16)).foldl (absorbStep cfg msg first) b :=
    fun first msg => by simp only [stepsFrom, hlane]; rfl
  refine ⟨fun _ => ⟨?_, fun buf hbuf => ?_⟩, fun hzero bufs hbufs hbound => ?_⟩
  · rw [hlane]
    exact laneOf_steps_of_total b.totalLength.toNat 0
  · rw [hsteps, absorb_eq_foldl_from_total cfg hbuf]
  · have htotal : b.totalLength.toNat = 0 := by rw [hzero]; rfl
    obtain ⟨hfold, hwhole⟩ := foldl_absorb_eq_absorb_flatten cfg hbufs (b := b) (by omega) (by omega)
    rw [hfold, hsteps, absorb_eq_foldl_from_total cfg hwhole]
    simp [hzero]

end Sys2Proof.Machine
end

section
/-! Where the peel stops (R85, R86, R96): arithmetic of 64-byte blocks and 48-byte rounds. -/

namespace Sys2Proof.Machine

theorem uneven_eq_zero_iff (t : Nat) : uneven t = 0 ↔ t ≤ 48 ∨ t % 48 = 0 := by
  unfold uneven
  split <;> omega

/-- The peel ends at the last round boundary before the end of the message, unless the stream is past it (R86, R96). -/
theorem absorbed_add_peelLength (l : Nat) :
    absorbedByUpdates l + peelLength (absorbedByUpdates l) (l - absorbedByUpdates l) = roundRobinBytes l := by
  have huneven := uneven_eq_zero_iff (absorbedByUpdates l)
  unfold peelLength roundRobinBytes
  unfold absorbedByUpdates at *
  split <;> omega

theorem absorbedByUpdates_mod (l : Nat) : absorbedByUpdates l % 16 = 0 := by
  unfold absorbedByUpdates
  omega

theorem roundRobinBytes_mod (l : Nat) : roundRobinBytes l % 16 = 0 := by
  have ht := absorbedByUpdates_mod l
  unfold roundRobinBytes
  omega

/-- The updates have passed the last round boundary at the exceptional lengths only (R96): with `l = 192q + s` they have
absorbed `192q - 16`, `192q + 48` or `192q + 112` bytes. -/
theorem absorbedByUpdates_le_rounds_iff {l : Nat} (h : 0 < l) :
    absorbedByUpdates l ≤ 48 * ((l - 1) / 48) ↔ ¬ (128 ≤ l ∧ (l % 192 = 0 ∨ 128 ≤ l % 192 ∧ l % 192 ≤ 144)) := by
  unfold absorbedByUpdates
  rcases Nat.eq_zero_or_pos (l % 192) with hs | hs
  · have hrounds : (l - 1) / 48 = 4 * (l / 192) - 1 := by omega
    omega
  · have hrounds : (l - 1) / 48 = 4 * (l / 192) + (l % 192 - 1) / 48 := by omega
    have hblocks : l / 64 = 3 * (l / 192) + l % 192 / 64 := by omega
    have hthird : l % 192 / 64 = 0 ∨ l % 192 / 64 = 1 ∨ l % 192 / 64 = 2 := by omega
    rcases hthird with h0 | h1 | h2 <;> omega

/-- Settles O11: the peel ends at `max(T0, 48 * R)`, and the two are compared at each residue of the length. -/
theorem peelStopsAtTheLastRoundBoundary : Obligations.PeelStopsAtTheLastRoundBoundary := by
  intro l t0 n
  have hpeel : t0 + n = roundRobinBytes l := absorbed_add_peelLength l
  have ht : t0 % 16 = 0 := absorbedByUpdates_mod l
  have hrobin := roundRobinBytes_mod l
  rw [hpeel]
  refine ⟨by omega, rfl, ?_, ?_, fun hl => ?_⟩
  · unfold roundRobinBytes absorbedByUpdates
    omega
  · unfold roundRobinBytes absorbedByUpdates
    omega
  · rw [← absorbedByUpdates_le_rounds_iff (by omega), roundRobinBytes, max_eq_right_iff]

end Sys2Proof.Machine
end

section
/-! The block that holds a message (R79, R101): UPDATE extends the message, in whatever pieces it comes. -/

namespace Sys2Proof.Machine

open Host (Outcome)

variable (cfg : Config)

/-- LANE neither reads nor writes the buffers. -/
theorem lane_setBuffers (op : Lane) (w0 w1 : Word) (b : Block) (t f : List Byte) :
    lane cfg op w0 w1 ((b.setTail t).setFbuf f) = ((lane cfg op w0 w1 b).setTail t).setFbuf f := by
  cases op <;> rfl

theorem laneSteps_setBuffers (buf : List Byte) (k o : Nat) (op : Lane) (b : Block) (t f : List Byte) :
    laneSteps cfg buf k o op ((b.setTail t).setFbuf f) = ((laneSteps cfg buf k o op b).setTail t).setFbuf f := by
  induction k generalizing o op b with
  | zero => rfl
  | succ k ih => rw [laneSteps_succ, lane_setBuffers, ih, laneSteps_succ]

/-- ABSORB neither reads nor writes the buffers (R68). -/
theorem absorb_setBuffers (buf : List Byte) (b : Block) (t f : List Byte) :
    absorb cfg buf ((b.setTail t).setFbuf f) = ((absorb cfg buf b).setTail t).setFbuf f :=
  congrArg (fun x : Block => x.addTotal buf.length) (laneSteps_setBuffers cfg buf _ 0 (laneIndex b.totalLength) b t f)

theorem Block.setFbuf_setFbuf (b : Block) (f f' : List Byte) : (b.setFbuf f).setFbuf f' = b.setFbuf f' := rfl

variable (seed : Word)

/-- The opened stream of which the first `a` bytes of `msg` are absorbed, with empty buffers. -/
def absorbedBlock (msg : List Byte) (a : Nat) : Block :=
  absorb cfg (msg.take a) (openStream cfg seed Block.reset)

/-- The opened stream of which the first `n` bytes of `msg` are forwarded, the last step of them reserved in `tail`, with
`f` in `fbuf` (R14, R78, R79). -/
def forwardedBlock (msg : List Byte) (n : Nat) (f : List Byte) : Block :=
  ((absorbedBlock cfg seed msg (n - 16)).setTail (slice msg (n - 16) n)).setFbuf f

theorem streamBlock_eq_forwardedBlock (msg : List Byte) :
    streamBlock cfg seed msg =
      forwardedBlock cfg seed msg (wholeBlocks msg.length) (msg.drop (wholeBlocks msg.length)) := rfl

@[simp] theorem absorbedBlock_fin (msg : List Byte) (a : Nat) : (absorbedBlock cfg seed msg a).fin = false := by
  simp [absorbedBlock, openStream_eq]

@[simp] theorem absorbedBlock_tail (msg : List Byte) (a : Nat) : (absorbedBlock cfg seed msg a).tail = [] := by
  simp [absorbedBlock, openStream_eq]

@[simp] theorem absorbedBlock_fbuf (msg : List Byte) (a : Nat) : (absorbedBlock cfg seed msg a).fbuf = [] := by
  simp [absorbedBlock, openStream_eq]

theorem absorbedBlock_totalLength {msg : List Byte} {a : Nat} (h : a ≤ msg.length) :
    (absorbedBlock cfg seed msg a).totalLength = BitVec.ofNat 64 a := by
  simp [absorbedBlock, openStream_eq, h]

theorem absorbedBlock_append (msg data : List Byte) {a : Nat} (h : a ≤ msg.length) :
    absorbedBlock cfg seed (msg ++ data) a = absorbedBlock cfg seed msg a := by
  rw [absorbedBlock, List.take_append_of_le_length h, absorbedBlock]

/-- Absorbing the next whole steps of the message (R72). -/
theorem absorb_absorbedBlock {msg : List Byte} {a k : Nat} (ha : a % 16 = 0) (hk : k % 16 = 0)
    (hlen : a + k ≤ msg.length) (hbound : msg.length < 2 ^ 64) :
    absorb cfg ((msg.drop a).take k) (absorbedBlock cfg seed msg a) = absorbedBlock cfg seed msg (a + k) := by
  have hx : (msg.take a).length = a := List.length_take_of_le (by omega)
  have hy : ((msg.drop a).take k).length = k := List.length_take_of_le (by rw [List.length_drop]; omega)
  have hzero : (openStream cfg seed Block.reset).totalLength.toNat = 0 := rfl
  rw [absorbedBlock, absorbedBlock, List.take_add]
  exact (absorbComposes cfg _ _ _ (by omega) (by omega) (by omega) (by omega)).symm

@[simp] theorem forwardedBlock_fin (msg : List Byte) (n : Nat) (f : List Byte) :
    (forwardedBlock cfg seed msg n f).fin = false := by simp [forwardedBlock]

@[simp] theorem forwardedBlock_tail (msg : List Byte) (n : Nat) (f : List Byte) :
    (forwardedBlock cfg seed msg n f).tail = slice msg (n - 16) n := by simp [forwardedBlock]

@[simp] theorem forwardedBlock_setFbuf (msg : List Byte) (n : Nat) (f f' : List Byte) :
    (forwardedBlock cfg seed msg n f).setFbuf f' = forwardedBlock cfg seed msg n f' :=
  Block.setFbuf_setFbuf _ f f'

theorem forwardedBlock_append (msg data : List Byte) {n : Nat} (f : List Byte) (h : n ≤ msg.length) :
    forwardedBlock cfg seed (msg ++ data) n f = forwardedBlock cfg seed msg n f := by
  rw [forwardedBlock, absorbedBlock_append cfg seed msg data (by omega), slice_append_left msg data h, forwardedBlock]

/-- A slice and the bytes next to it are a longer slice. -/
theorem slice_append_take_drop (s : List Byte) {i j : Nat} (m : Nat) (h : i ≤ j) :
    slice s i j ++ (s.drop j).take m = slice s i (j + m) := by
  have hdrop : s.drop j = (s.drop i).drop (j - i) := by rw [List.drop_drop, Nat.add_sub_cancel' h]
  rw [slice, slice, hdrop, ← List.take_add, show j + m - i = j - i + m by omega]

theorem take_slice (s : List Byte) {i j k : Nat} (h : i + k ≤ j) : (slice s i j).take k = (s.drop i).take k := by
  rw [slice, List.take_take, Nat.min_eq_left (by omega)]

theorem drop_slice (s : List Byte) (i j k : Nat) : (slice s i j).drop k = slice s (i + k) j := by
  rw [slice, List.drop_take, List.drop_drop, slice, Nat.sub_sub]

/-- SS.UPDATE forwards the next whole blocks of the message (R76, R79). -/
theorem ssUpdate_forwardedBlock {msg : List Byte} {n m : Nat} (f : List Byte) (hn : n % 64 = 0) (hm : m % 64 = 0)
    (hpos : 0 < m) (hlen : n + m ≤ msg.length) (hbound : msg.length < 2 ^ 64) :
    ssUpdate cfg ((msg.drop n).take m) (forwardedBlock cfg seed msg n f) =
      .done (forwardedBlock cfg seed msg (n + m) f) := by
  have hbuf : ((msg.drop n).take m).length = m := List.length_take_of_le (by rw [List.length_drop]; omega)
  have hc : (forwardedBlock cfg seed msg n f).tail ++ (msg.drop n).take m = slice msg (n - 16) (n + m) :=
    slice_append_take_drop msg m (by omega)
  obtain ⟨k, hk⟩ : ∃ k, k = n + m - 16 - (n - 16) := ⟨_, rfl⟩
  have hprefix : updatePrefix (slice msg (n - 16) (n + m)).length = k := by
    rw [slice_length, updatePrefix_of_whole_steps (by omega)]
    omega
  rw [ssUpdate_open cfg (forwardedBlock_fin ..) (by omega), hc, hprefix, take_slice msg (by omega), drop_slice,
    forwardedBlock, absorb_setBuffers, absorb_absorbedBlock cfg seed (by omega) (by omega) (by omega) hbound,
    show n - 16 + k = n + m - 16 by omega]
  rfl

/-- The whole blocks of a message are those forwarded and those of the rest (R98, R101). -/
theorem wholeBlocks_sub {n l : Nat} (hn : n % 64 = 0) (h : n ≤ l) : n + wholeBlocks (l - n) = wholeBlocks l := by
  unfold wholeBlocks
  omega

/-- Forwarding takes the block to the one with all whole blocks of the message forwarded (R98, R101). -/
theorem forwardBlocks_forwardedBlock {msg : List Byte} {n : Nat} (f : List Byte) (hn : n % 64 = 0) (hle : n ≤ msg.length)
    (hbound : msg.length < 2 ^ 64) :
    forwardBlocks cfg (msg.drop n) (forwardedBlock cfg seed msg n f) =
      .done (forwardedBlock cfg seed msg (wholeBlocks msg.length) f) := by
  obtain ⟨b, hrun, _, _, hnone, hsome⟩ := forwardBlocks_runs cfg (msg.drop n) (forwardedBlock_fin cfg seed msg n f)
  have hwhole := wholeBlocks_sub hn hle
  rw [List.length_drop] at hnone hsome
  rw [hrun]
  rcases Nat.eq_zero_or_pos (wholeBlocks (msg.length - n)) with hzero | hpos
  · rw [hnone hzero, ← hwhole, hzero, Nat.add_zero]
  · have hfits : n + wholeBlocks (msg.length - n) ≤ msg.length := hwhole ▸ wholeBlocks_le msg.length
    rw [← hsome hpos, ssUpdate_forwardedBlock cfg seed f hn (wholeBlocks_mod _) hpos hfits hbound, hwhole]

/-- The block that holds `msg` has forwarded the whole blocks of `msg`, which are the first of `msg ‖ data`, and has the
rest before `data` in hand (R101). -/
theorem streamBlock_append (msg data : List Byte) :
    streamBlock cfg seed msg =
        forwardedBlock cfg seed (msg ++ data) (wholeBlocks msg.length) (msg.drop (wholeBlocks msg.length)) ∧
      (streamBlock cfg seed msg).fbuf ++ data = (msg ++ data).drop (wholeBlocks msg.length) := by
  have hle := wholeBlocks_le msg.length
  rw [streamBlock_eq_forwardedBlock]
  exact ⟨(forwardedBlock_append cfg seed msg data _ hle).symm, (List.drop_append_of_le_length hle).symm⟩

/-- The opened stream holds the empty message (R79). -/
theorem openStream_eq_streamBlock (b : Block) : openStream cfg seed b = streamBlock cfg seed [] := by
  rw [streamBlock_eq_forwardedBlock, forwardedBlock, absorbedBlock, List.take_nil, absorb_nil]
  rfl

/-- UPDATE takes the block that holds `msg` to the block that holds `msg ‖ data` (R101). -/
theorem updateCommand_streamBlock {msg data : List Byte} {s : State} (hblock : s.block = streamBlock cfg seed msg)
    (hbound : msg.length + data.length < 2 ^ 64) :
    updateCommand cfg data s = .next ((s.setBlock (streamBlock cfg seed (msg ++ data))).respond .ok) := by
  obtain ⟨hstream, hbytes⟩ := streamBlock_append cfg seed msg data
  have hle : wholeBlocks msg.length ≤ (msg ++ data).length := by
    have := wholeBlocks_le msg.length
    rw [List.length_append]
    omega
  have hforward : forwardBlocks cfg (s.block.fbuf ++ data) s.block = .done (forwardedBlock cfg seed (msg ++ data)
      (wholeBlocks (msg ++ data).length) (msg.drop (wholeBlocks msg.length))) := by
    rw [hblock, hbytes, hstream]
    exact forwardBlocks_forwardedBlock cfg seed _ (wholeBlocks_mod _) hle (by rwa [List.length_append])
  have hopen : s.block.fin = false := by rw [hblock, hstream, forwardedBlock_fin]
  rw [updateCommand_of_forward cfg hopen hforward, hblock, hbytes, List.length_drop, List.drop_drop,
    wholeBlocks_sub (wholeBlocks_mod _) hle, streamBlock_eq_forwardedBlock, forwardedBlock_setFbuf]

/-- Settles O27: the opened stream holds the empty message, and forwarding continues where the message held so far ends. -/
theorem updateExtendsTheMessage : Obligations.UpdateExtendsTheMessage := by
  refine fun cfg seed => ⟨fun s => ?_, fun msg data s => updateCommand_streamBlock cfg seed⟩
  rw [← openStream_eq_streamBlock cfg seed s.block]
  rfl

end Sys2Proof.Machine
end

section
/-! The digest (R81 to R96, R102): FINAL on the block that holds a message answers the digest of the message. -/

namespace Sys2Proof.Machine

open Host (Outcome)

variable (cfg : Config)

/-- The three accumulators of a block, as R102 has them. -/
def lanes (b : Block) : Lanes := (b.acc0, b.acc1, b.acc2)

/-- ABSORB's step `j` from the beginning of a message is step `j` of R102. -/
theorem lanes_absorbStep (msg : List Byte) (b : Block) (j : Nat) :
    lanes (absorbStep cfg msg 0 b j) = digestStep cfg msg (lanes b) j := by
  have hj : j % 3 = 0 ∨ j % 3 = 1 ∨ j % 3 = 2 := by omega
  rcases hj with h | h | h
  · simp [absorbStep, digestStep, laneOf, h, lane, lanes, stepValue, laneConst]
  · simp [absorbStep, digestStep, laneOf, h, lane, lanes, stepValue, laneConst]
  · simp [absorbStep, digestStep, laneOf, h, lane, lanes, stepValue, laneConst]

/-- The accumulators after the first `a` bytes of a message are absorbed are those of R102 after its first steps. -/
theorem lanes_absorbedBlock (seed : Word) {msg : List Byte} {a : Nat} (ha : a % 16 = 0) (hle : a ≤ msg.length) :
    lanes (absorbedBlock cfg seed msg a) = (List.range (a / 16)).foldl (digestStep cfg msg)
      (mixedSeed cfg seed, cfg.laneInit (mixedSeed cfg seed), cfg.laneInit (mixedSeed cfg seed)) := by
  have hlen : (msg.take a).length = a := List.length_take_of_le hle
  have hsteps : (List.range (a / 16)).foldl (absorbStep cfg (msg.take a) 0) (openStream cfg seed Block.reset) =
      (List.range (a / 16)).foldl (absorbStep cfg msg 0) (openStream cfg seed Block.reset) := by
    refine List.foldl_ext _ _ _ fun b j hj => ?_
    have hstep := absorbStep_append_left cfg (x := msg.take a) (msg.drop a) 0 b (j := j)
      (by have := List.mem_range.1 hj; omega)
    rwa [List.take_append_drop, eq_comm] at hstep
  have hzero : (openStream cfg seed Block.reset).totalLength.toNat = 0 := rfl
  rw [absorbedBlock, absorb_eq_foldl_from_total cfg (by omega), hzero, Nat.zero_div, hlen, hsteps]
  exact (List.foldl_hom lanes fun b j => (lanes_absorbStep cfg msg b j).symm).symm

/-- The steps of the long path on what is left of a message after `a` bytes are the last steps of R102. -/
theorem longSteps_drop_eq_foldl (msg : List Byte) (a k i : Nat) (acc : Word) :
    longSteps cfg (msg.drop a) k (16 * i) acc = (List.range' i k).foldl (digestTailStep cfg msg a) acc := by
  induction k generalizing i acc with
  | zero => rfl
  | succ k ih =>
    rw [longSteps, show 16 * i + 16 = 16 * (i + 1) by omega, ih, List.range'_succ, List.foldl_cons, memRead_drop,
      memRead_drop, ← Nat.add_assoc]
    rfl

/-- The accumulator that goes on after the fold, where there is one (R87). -/
def foldLanes (folded : Bool) (x : Lanes) : Word :=
  if folded then x.1 ^^^ x.2.1 ^^^ x.2.2 else x.1

/-- The digest that steps 3 to 7 answer (R87 to R94). -/
theorem finishStream_digest (c last16 : List Byte) (b : Block) :
    (finishStream cfg c last16 b).2 =
      finalMix cfg (finalPair (finalPath (folds b.totalLength) c.length) c last16)
        (finalAcc cfg (finalPath (folds b.totalLength) c.length) c (foldLanes (folds b.totalLength) (lanes b)))
        (b.totalLength + BitVec.ofNat 64 c.length) := by
  unfold finishStream foldLanes
  cases folds b.totalLength <;> rfl

theorem smallPair_medium {c : List Byte} (h : 4 ≤ c.length) : smallPair c = mediumPair c := by
  simp [smallPair, mediumPair, h]

theorem smallPair_short {c : List Byte} (h1 : 1 ≤ c.length) (h4 : c.length < 4) : smallPair c = shortPair c := by
  simp [smallPair, shortPair, h1, Nat.not_le.2 h4]

theorem smallPair_empty {c : List Byte} (h : c.length = 0) : smallPair c = (0, 0) := by
  simp [smallPair, h]

/-- On the short paths the pair is that of the remainder and the accumulator stays (R88, R90 to R92). -/
theorem finalPath_small {c : List Byte} (last16 : List Byte) (acc : Word) (h : c.length ≤ 16) :
    finalPair (finalPath false c.length) c last16 = smallPair c ∧ finalAcc cfg (finalPath false c.length) c acc = acc := by
  unfold finalPath
  rw [if_neg (by simp; omega)]
  split
  · exact ⟨(smallPair_medium (by assumption)).symm, rfl⟩
  · split
    · exact ⟨(smallPair_short (by assumption) (by omega)).symm, rfl⟩
    · exact ⟨(smallPair_empty (by omega)).symm, rfl⟩

/-- The long path is taken after a fold and for more than 16 bytes (R88). -/
theorem finalPath_long {folded : Bool} {r : Nat} (h : folded = true ∨ 16 < r) : finalPath folded r = .long :=
  if_pos h

/-- The test of R87 on a count that does not wrap. -/
theorem folds_ofNat {a : Nat} (h : a < 2 ^ 64) : folds (BitVec.ofNat 64 a) = decide (48 ≤ a) := by
  rw [folds, BitVec.toNat_ofNat, Nat.mod_eq_of_lt h]

/-- The accumulators of R102 after the first `a` bytes of the message. -/
def digestLanes (seed : Word) (msg : List Byte) (a : Nat) : Lanes :=
  (List.range (a / 16)).foldl (digestStep cfg msg)
    (mixedSeed cfg seed, cfg.laneInit (mixedSeed cfg seed), cfg.laneInit (mixedSeed cfg seed))

theorem digestAfter_long (seed : Word) {msg : List Byte} {a : Nat} (h : 48 ≤ a ∨ 16 < msg.length - a) :
    digestAfter cfg seed msg a = finalMix cfg (lastPair msg)
      ((List.range ((msg.length - a - 1) / 16)).foldl (digestTailStep cfg msg a)
        (foldLanes (decide (48 ≤ a)) (digestLanes cfg seed msg a))) (BitVec.ofNat 64 msg.length) := by
  simp [digestAfter, finalMix, foldLanes, digestLanes, h]

theorem digestAfter_small (seed : Word) {msg : List Byte} (h : msg.length ≤ 16) :
    digestAfter cfg seed msg 0 = finalMix cfg (smallPair msg) (mixedSeed cfg seed) (BitVec.ofNat 64 msg.length) := by
  simp [digestAfter, finalMix, Nat.not_lt.2 h]

/-- Finishing on the rest of a message, of which `a` bytes are absorbed, answers R102's digest after `a` bytes. -/
theorem finishStream_absorbedBlock (seed : Word) {msg : List Byte} {a : Nat} (ha : a % 16 = 0) (hle : a ≤ msg.length)
    (hround : a = 0 ∨ 48 ≤ a) (hbound : msg.length < 2 ^ 64) :
    (finishStream cfg (msg.drop a) (msg.drop (msg.length - 16)) (absorbedBlock cfg seed msg a)).2 =
      digestAfter cfg seed msg a := by
  have htotal : BitVec.ofNat 64 a + BitVec.ofNat 64 (msg.length - a) = BitVec.ofNat 64 msg.length := by
    rw [← BitVec.ofNat_add, Nat.add_sub_cancel' hle]
  rw [finishStream_digest, absorbedBlock_totalLength cfg seed hle, folds_ofNat (by omega),
    lanes_absorbedBlock cfg seed ha hle, ← digestLanes]
  by_cases hlong : 48 ≤ a ∨ 16 < msg.length - a
  · have hlast : finalPair .long (msg.drop a) (msg.drop (msg.length - 16)) = lastPair msg := by
      simp only [finalPair, memRead_drop, lastPair, show msg.length - 16 + 8 = msg.length - 8 by omega, Nat.add_zero]
    have hsteps := longSteps_drop_eq_foldl cfg msg a ((msg.length - a - 1) / 16) 0
    rw [← List.range_eq_range'] at hsteps
    rw [List.length_drop, htotal, finalPath_long (by simpa using hlong), hlast, finalAcc, longStepCount, List.length_drop,
      hsteps, digestAfter_long cfg seed hlong]
  · obtain rfl : a = 0 := by omega
    obtain ⟨hpair, hacc⟩ := finalPath_small cfg (c := msg) (msg.drop (msg.length - 16))
      (foldLanes false (digestLanes cfg seed msg 0)) (by omega)
    rw [Nat.sub_zero] at htotal
    rw [List.drop_zero, htotal, digestAfter_small cfg seed (by omega), ← hpair]
    exact congrArg (fun acc => finalMix cfg _ acc _) hacc

/-- Emptying the buffers of the block that has forwarded `n` bytes leaves what it has absorbed (R84). -/
theorem forwardedBlock_setTail_nil (seed : Word) (msg : List Byte) (n : Nat) :
    (forwardedBlock cfg seed msg n []).setTail [] = absorbedBlock cfg seed msg (n - 16) := by
  have htail := absorbedBlock_tail cfg seed msg (n - 16)
  have hfbuf := absorbedBlock_fbuf cfg seed msg (n - 16)
  rw [forwardedBlock]
  generalize absorbedBlock cfg seed msg (n - 16) = b at htail hfbuf
  cases b
  subst htail hfbuf
  rfl

/-- On an open stream and within its contract, SS.FINAL peels and finishes (R81, R84, R86). -/
theorem ssFinal_open {buf c : List Byte} {b : Block} (hfin : b.fin = false) (h : buf.length < 64)
    (hc : b.tail ++ buf = c) :
    ssFinal cfg buf b = .done (finishStream cfg (c.drop (peelLength b.totalLength.toNat c.length))
      (c.drop (c.length - 16)) (absorb cfg (c.take (peelLength b.totalLength.toNat c.length)) (b.setTail []))) := by
  rcases ssFinal_cases cfg buf b with ⟨hclosed, _⟩ | ⟨_, hlong, _⟩ | ⟨_, _, hrun⟩
  · simp [hfin] at hclosed
  · omega
  · rw [hrun, hc]

theorem forwardedBlock_totalLength (seed : Word) {msg : List Byte} {n : Nat} (f : List Byte) (h : n ≤ msg.length) :
    (forwardedBlock cfg seed msg n f).totalLength = BitVec.ofNat 64 (n - 16) :=
  absorbedBlock_totalLength cfg seed (by omega)

theorem roundRobinBytes_le (l : Nat) : roundRobinBytes l ≤ l := by
  unfold roundRobinBytes absorbedByUpdates
  omega

/-- SS.FINAL on the block that has forwarded a message's whole blocks finishes from the last round boundary (R84 to R86). -/
theorem ssFinal_forwardedBlock (seed : Word) {msg : List Byte} (hbound : msg.length < 2 ^ 64) :
    ssFinal cfg (msg.drop (wholeBlocks msg.length)) (forwardedBlock cfg seed msg (wholeBlocks msg.length) []) =
      .done (finishStream cfg (msg.drop (roundRobinBytes msg.length)) (msg.drop (msg.length - 16))
        (absorbedBlock cfg seed msg (roundRobinBytes msg.length))) := by
  obtain ⟨t, ht⟩ : ∃ t, t = wholeBlocks msg.length - 16 := ⟨_, rfl⟩
  have hwhole := wholeBlocks_le msg.length
  have hmod := wholeBlocks_mod msg.length
  have hpeel : t + peelLength t (msg.length - t) = roundRobinBytes msg.length := by
    rw [ht]
    exact absorbed_add_peelLength msg.length
  have hrobin := roundRobinBytes_le msg.length
  have hrobin_mod := roundRobinBytes_mod msg.length
  have hc : (forwardedBlock cfg seed msg (wholeBlocks msg.length) []).tail ++ msg.drop (wholeBlocks msg.length) =
      msg.drop t := by
    rw [forwardedBlock_tail, ← ht, slice_append_drop msg (by omega)]
  have htotal : (forwardedBlock cfg seed msg (wholeBlocks msg.length) []).totalLength.toNat = t := by
    rw [forwardedBlock_totalLength cfg seed [] hwhole, ← ht, BitVec.toNat_ofNat]
    omega
  rw [ssFinal_open cfg (forwardedBlock_fin ..) (length_drop_wholeBlocks_lt msg) hc, htotal, forwardedBlock_setTail_nil,
    ← ht, List.length_drop, absorb_absorbedBlock cfg seed (by omega) (by omega) (by omega) hbound, List.drop_drop,
    List.drop_drop, hpeel, show t + (msg.length - t - 16) = msg.length - 16 by omega]

/-- Closing the stream on the block that holds `msg`, with `msg ‖ data` as the message (R99, R102). -/
theorem closeStream_streamBlock (seed : Word) (msg data : List Byte) (hbound : (msg ++ data).length < 2 ^ 64) :
    closeStream cfg ((streamBlock cfg seed msg).fbuf ++ data) (streamBlock cfg seed msg) =
      .done (finishStream cfg ((msg ++ data).drop (roundRobinBytes (msg ++ data).length))
        ((msg ++ data).drop ((msg ++ data).length - 16))
        (absorbedBlock cfg seed (msg ++ data) (roundRobinBytes (msg ++ data).length))) := by
  obtain ⟨hstream, hbytes⟩ := streamBlock_append cfg seed msg data
  have hmod := wholeBlocks_mod msg.length
  have hle : wholeBlocks msg.length ≤ (msg ++ data).length := by
    have := wholeBlocks_le msg.length
    rw [List.length_append]
    omega
  have hforward := forwardBlocks_forwardedBlock cfg seed [] hmod hle hbound
  rw [← forwardedBlock_setFbuf cfg seed (msg ++ data) _ (msg.drop (wholeBlocks msg.length)) []] at hforward
  have hrest : ((msg ++ data).drop (wholeBlocks msg.length)).drop
      (wholeBlocks ((msg ++ data).drop (wholeBlocks msg.length)).length) =
      (msg ++ data).drop (wholeBlocks (msg ++ data).length) := by
    rw [List.drop_drop, List.length_drop, wholeBlocks_sub hmod hle]
  rw [hbytes, hstream, closeStream_of_forward cfg hforward, hrest, ssFinal_forwardedBlock cfg seed hbound]

/-- The block that FINAL leaves of a message. -/
def finishedBlock (seed : Word) (msg : List Byte) : Block :=
  (finishStream cfg (msg.drop (roundRobinBytes msg.length)) (msg.drop (msg.length - 16))
    (absorbedBlock cfg seed msg (roundRobinBytes msg.length))).1

/-- After FINAL the block is CLOSED with empty buffers, and `T` is at the length of the message (R93, R95). -/
theorem finishedBlock_frame (seed : Word) (msg : List Byte) :
    (finishedBlock cfg seed msg).fin = true ∧ (finishedBlock cfg seed msg).tail = [] ∧
    (finishedBlock cfg seed msg).fbuf = [] ∧
    (finishedBlock cfg seed msg).totalLength = BitVec.ofNat 64 msg.length := by
  have hle := roundRobinBytes_le msg.length
  obtain ⟨hfin, htail, hfbuf, _, _, htotal⟩ := finishStream_frame cfg (msg.drop (roundRobinBytes msg.length))
    (msg.drop (msg.length - 16)) (absorbedBlock cfg seed msg (roundRobinBytes msg.length))
  refine ⟨hfin, htail.trans (absorbedBlock_tail ..), hfbuf.trans (absorbedBlock_fbuf ..), htotal.trans ?_⟩
  rw [absorbedBlock_totalLength cfg seed hle, List.length_drop, ← BitVec.ofNat_add, Nat.add_sub_cancel' hle]

/-- FINAL on the block that holds `msg` answers `D(seed, msg ‖ data)`, and the block it leaves depends on the concatenation
only (R102, R104). -/
theorem finalCommand_streamBlock (seed : Word) {msg data : List Byte} {s : State}
    (hblock : s.block = streamBlock cfg seed msg) (hbound : (msg ++ data).length < 2 ^ 64) :
    finalCommand cfg data s = .next ((s.setBlock (finishedBlock cfg seed (msg ++ data))).respond
      (.digest (digest cfg seed (msg ++ data)))) := by
  have hopen : s.block.fin = false := by rw [hblock, streamBlock_eq_forwardedBlock, forwardedBlock_fin]
  have hround : roundRobinBytes (msg ++ data).length = 0 ∨ 48 ≤ roundRobinBytes (msg ++ data).length := by
    unfold roundRobinBytes absorbedByUpdates
    omega
  have hclose := closeStream_streamBlock cfg seed msg data hbound
  rw [← hblock] at hclose
  rw [finalCommand_of_close cfg hopen hclose, finishStream_absorbedBlock cfg seed (roundRobinBytes_mod _)
    (roundRobinBytes_le _) hround hbound]
  rfl

/-- HASH answers `D(seed, data)`: it is FINAL on the block that holds the empty message (R100, R102). -/
theorem hashCommand_digest (seed : Word) {data : List Byte} (s : State) (hbound : data.length < 2 ^ 64) :
    hashCommand cfg seed data s =
      .next ((s.setBlock (finishedBlock cfg seed data)).respond (.digest (digest cfg seed data))) := by
  rw [hashCommand_eq]
  exact finalCommand_streamBlock cfg seed (msg := []) (openStream_eq_streamBlock cfg seed s.block) hbound

/-- Settles O28: FINAL goes on where the message held so far ends. -/
theorem finalAnswersTheDigestOfTheMessage : Obligations.FinalAnswersTheDigestOfTheMessage := by
  intro cfg seed msg data s hblock hbound
  exact ⟨_, finalCommand_streamBlock cfg seed hblock (by rwa [List.length_append])⟩

/-- Settles O17: HASH is FINAL on the block that holds the empty message. -/
theorem hashAnswersTheDigestOfItsPayload : Obligations.HashAnswersTheDigestOfItsPayload := by
  intro seed data s hbound
  exact ⟨_, (exec_eq_runCommand _ s).trans (hashCommand_digest specConfig seed s hbound),
    finishedBlock_frame specConfig seed data⟩

/-- The UPDATEs of a stream take the block that holds `msg` to the one that holds `msg` and all the chunks, answering OK
each time (R98, R104). -/
theorem runCommands_updates (seed : Word) (chunks : List (List Byte)) {msg : List Byte} {rest : List Instr} {s : State}
    (hblock : s.block = streamBlock cfg seed msg) (hbound : (msg ++ chunks.flatten).length < 2 ^ 64) :
    runCommands cfg (chunks.map Instr.update ++ rest) s = runCommands cfg rest
      { s with block := streamBlock cfg seed (msg ++ chunks.flatten)
               responses := s.responses ++ List.replicate chunks.length 0x00 } := by
  induction chunks generalizing msg s with
  | nil =>
    have hsame : { s with block := streamBlock cfg seed msg } = s := by rw [← hblock]
    simp [hsame]
  | cons chunk chunks ih =>
    rw [List.flatten_cons, ← List.append_assoc] at hbound ⊢
    have hfirst : msg.length + chunk.length < 2 ^ 64 := by
      simp only [List.length_append] at hbound
      omega
    have hrun : runCommand cfg (.update chunk) s = _ := updateCommand_streamBlock cfg seed hblock hfirst
    rw [List.map_cons, List.cons_append, runCommands_cons_of_next cfg hrun, ih rfl hbound]
    simp [State.respond, State.setBlock, List.replicate_succ]

/-- Settles O29: NEW opens the block that holds the empty message, the UPDATEs extend it by induction on the chunks, and
FINAL's answer and block depend on the concatenation only, which HASH receives in one piece. -/
theorem digestIgnoresChunking : Obligations.DigestIgnoresChunking := by
  intro cfg seed chunks last s hbound
  refine ⟨finishedBlock cfg seed (chunks.flatten ++ last), ?_, hashCommand_digest cfg seed s hbound⟩
  have hnew : runCommand cfg (.new seed) s = .next ((s.setBlock (openStream cfg seed s.block)).respond .ok) := rfl
  have hopened : ((s.setBlock (openStream cfg seed s.block)).respond .ok).block = streamBlock cfg seed [] :=
    openStream_eq_streamBlock cfg seed s.block
  have hchunks : ([] ++ chunks.flatten).length < 2 ^ 64 := by
    rw [List.length_append] at hbound
    rw [List.nil_append]
    omega
  have hlast : ∀ t : State, t.block = streamBlock cfg seed chunks.flatten → runCommand cfg (.final last) t = _ :=
    fun t ht => finalCommand_streamBlock cfg seed ht hbound
  rw [streamCommands, runCommands_cons_of_next cfg hnew, runCommands_updates cfg seed chunks hopened hchunks,
    List.nil_append, runCommands_cons_of_next cfg (hlast _ rfl)]
  simp [runCommands, State.respond, State.setBlock, List.replicate_succ]

end Sys2Proof.Machine
end

section
/-! The one-shot form (R107): where the rounds end where the block's absorption ends, the digests are one. -/

namespace Sys2Proof.Machine

variable (cfg : Config)

/-- A round of the one-shot form is three steps of R102. -/
theorem oneShotRound_eq_steps (msg : List Byte) (x : Lanes) (k : Nat) :
    oneShotRound cfg msg x k =
      digestStep cfg msg (digestStep cfg msg (digestStep cfg msg x (3 * k)) (3 * k + 1)) (3 * k + 2) := by
  have h0 : 3 * k % 3 = 0 := by omega
  have h1 : (3 * k + 1) % 3 = 1 := by omega
  have h2 : (3 * k + 2) % 3 = 2 := by omega
  simp only [digestStep, h0, h1, h2, oneShotRound, Nat.mul_add, ← Nat.mul_assoc, Nat.add_assoc, Nat.reduceMul,
    Nat.reduceAdd]

/-- The rounds of the one-shot form are the steps of R102. -/
theorem foldl_oneShotRound (msg : List Byte) (x : Lanes) (rounds : Nat) :
    (List.range rounds).foldl (oneShotRound cfg msg) x = (List.range (3 * rounds)).foldl (digestStep cfg msg) x := by
  induction rounds with
  | zero => rfl
  | succ k ih =>
    rw [Nat.mul_succ]
    simp only [List.range_succ, List.foldl_append, List.foldl_cons, List.foldl_nil, ih, oneShotRound_eq_steps]

/-- The one-shot form of more than 16 bytes, with the rounds as steps of R102 (95_test_vectors.md section 6). -/
theorem oneShot_long (seed : Word) {msg : List Byte} (hinit : ∀ m, cfg.laneInit m = m) {a : Nat}
    (ha : a = 48 * ((msg.length - 1) / 48)) (h : 16 < msg.length) :
    oneShot cfg seed msg = finalMix cfg (lastPair msg)
      ((List.range ((msg.length - a - 1) / 16)).foldl (digestTailStep cfg msg a)
        (foldLanes (decide (48 ≤ a)) (digestLanes cfg seed msg a))) (BitVec.ofNat 64 msg.length) := by
  have hsteps : a / 16 = 3 * ((msg.length - 1) / 48) := by omega
  have hfolded : 48 ≤ a ↔ 48 < msg.length := by omega
  simp only [oneShot, h, if_true, foldLanes, digestLanes, hinit, hsteps, ← foldl_oneShotRound, hfolded, ← ha]
  by_cases hround : 48 < msg.length
  · simp [hround, finalMix]
  · obtain rfl : a = 0 := by omega
    simp [hround, finalMix, show (msg.length - 1) / 48 = 0 by omega]

theorem oneShot_small (seed : Word) {msg : List Byte} (h : msg.length ≤ 16) :
    oneShot cfg seed msg = finalMix cfg (smallPair msg) (mixedSeed cfg seed) (BitVec.ofNat 64 msg.length) := by
  simp [oneShot, finalMix, Nat.not_lt.2 h]

/-- Off the exceptional lengths the block absorbs whole rounds, as the one-shot form does (R96, R107). -/
theorem roundRobinBytes_eq_rounds {l : Nat} (h : l ≤ 127 ∨ ¬ (l % 192 = 0 ∨ 128 ≤ l % 192 ∧ l % 192 ≤ 144)) :
    roundRobinBytes l = 48 * ((l - 1) / 48) := by
  rcases Nat.eq_zero_or_pos l with rfl | hpos
  · rfl
  · exact max_eq_right ((absorbedByUpdates_le_rounds_iff hpos).2 (by omega))

/-- Settles O30: off the listed lengths both forms take the same rounds, and after them the same steps. -/
theorem digestIsTheOneShotFormOffTheListedLengths : Obligations.DigestIsTheOneShotFormOffTheListedLengths := by
  intro cfg seed msg hinit hlen
  rw [digest, roundRobinBytes_eq_rounds hlen]
  rcases Nat.lt_or_ge 16 msg.length with hlong | hsmall
  · rw [digestAfter_long cfg seed (by omega), oneShot_long cfg seed hinit rfl hlong]
  · rw [show 48 * ((msg.length - 1) / 48) = 0 by omega, digestAfter_small cfg seed hsmall, oneShot_small cfg seed hsmall]

end Sys2Proof.Machine
end

section
/-! FINAL of a message of at most 16 bytes (R88, R90 to R94), byte by byte. -/

namespace Sys2Proof.Machine

variable (cfg : Config)

/-- Finishing a remainder of at most 16 bytes without a fold: the pair of the remainder, and the accumulator as it was. -/
theorem finishStream_small {c : List Byte} (last16 : List Byte) {b : Block} (htotal : b.totalLength.toNat < 48)
    (h : c.length ≤ 16) :
    finishStream cfg c last16 b = ((b.addTotal c.length).setFin,
      finalMix cfg (smallPair c) b.acc0 (b.totalLength + BitVec.ofNat 64 c.length)) := by
  have hfolds : folds b.totalLength = false := decide_eq_false (Nat.not_le.2 htotal)
  obtain ⟨hpair, hacc⟩ := finalPath_small cfg last16 b.acc0 h
  simp only [finishStream, hfolds, Bool.false_eq_true, if_false, hpair, hacc]
  rfl

/-- FINAL of a message of at most 16 bytes of which nothing was forwarded: the final mixing of the message's pair, the
accumulator and the length (R81, R94, R99). -/
theorem finalCommand_small {data msg : List Byte} {s : State} (hfin : s.block.fin = false) (htail : s.block.tail = [])
    (htotal : s.block.totalLength = 0) (hmsg : s.block.fbuf ++ data = msg) (h : msg.length ≤ 16) :
    finalCommand cfg data s = .next
      { s with block := { s.block with fin := true, fbuf := [], totalLength := BitVec.ofNat 64 msg.length }
               responses := s.responses ++ encodeResponse (.digest
                 (finalMix cfg (smallPair msg) s.block.acc0 (BitVec.ofNat 64 msg.length))) } := by
  have hnone : wholeBlocks msg.length = 0 := by unfold wholeBlocks; omega
  obtain ⟨b, hforward, _, _, hkeep, _⟩ := forwardBlocks_runs cfg msg (b := s.block.setFbuf []) hfin
  have hpeel : peelLength (s.block.setFbuf []).totalLength.toNat msg.length = 0 := by
    rw [Block.setFbuf_totalLength, htotal]
    unfold peelLength
    exact if_neg (by simp [uneven]; omega)
  have hclose := closeStream_of_forward cfg hforward
  rw [hkeep hnone, ssFinal_open cfg (b := s.block.setFbuf []) (c := msg) hfin (length_drop_wholeBlocks_lt msg)
    (by simp [htail, hnone]), hpeel, List.take_zero, absorb_nil, List.drop_zero,
    finishStream_small cfg _ (by simp [htotal]) h] at hclose
  rw [← hmsg] at hclose ⊢
  rw [finalCommand_of_close cfg hfin hclose]
  simp [State.respond, State.setBlock, Block.setFin, Block.addTotal, Block.setTotal, Block.setTail, Block.setFbuf, htail,
    htotal]

/-- A read of one byte (R33). -/
theorem memRead_one (s : List Byte) (i : Nat) : memRead s i 1 = BitVec.ofNat 64 (s.getD i 0).toNat := by
  rw [memRead, slice_add, leValue_take]
  simp

/-- Four bytes as a number, the lowest first; a byte past the end counts as zero. -/
def fourBytes (s : List Byte) (o : Nat) : Nat :=
  (s.getD o 0).toNat + 256 * (s.getD (o + 1) 0).toNat + 65536 * (s.getD (o + 2) 0).toNat +
    16777216 * (s.getD (o + 3) 0).toNat

theorem fourBytes_lt (s : List Byte) (o : Nat) : fourBytes s o < 2 ^ 32 := by
  have h0 := (s.getD o 0).isLt
  have h1 := (s.getD (o + 1) 0).isLt
  have h2 := (s.getD (o + 2) 0).isLt
  have h3 := (s.getD (o + 3) 0).isLt
  unfold fourBytes
  omega

/-- A read of four bytes (R33). -/
theorem memRead_four (s : List Byte) (o : Nat) : memRead s o 4 = BitVec.ofNat 64 (fourBytes s o) := by
  rw [memRead, slice_add, leValue_take]
  simp [List.range_succ, fourBytes, Nat.mul_comm, Nat.add_assoc]

/-- Shifting a number is multiplying it. -/
theorem ofNat_shiftLeft (x k : Nat) : BitVec.ofNat 64 x <<< k = BitVec.ofNat 64 (2 ^ k * x) := by
  apply BitVec.eq_of_toNat_eq
  simp [Nat.shiftLeft_eq, Nat.mul_comm]

/-- Numbers in disjoint bit positions: their disjunction is their sum. -/
theorem ofNat_or_of_lt {y k : Nat} (x : Nat) (h : y < 2 ^ k) :
    BitVec.ofNat 64 (2 ^ k * x) ||| BitVec.ofNat 64 y = BitVec.ofNat 64 (2 ^ k * x + y) := by
  rw [Nat.two_pow_add_eq_or_of_lt h]
  ext i
  simp

/-- The pair of a short message (R91). -/
theorem shortPair_eq (msg : List Byte) :
    shortPair msg = (BitVec.ofNat 64 (65536 * (msg.getD 0 0).toNat + 256 * (msg.getD (msg.length / 2) 0).toNat +
      (msg.getD (msg.length - 1) 0).toNat), 0) := by
  have h1 := (msg.getD (msg.length / 2) 0).isLt
  have h2 := (msg.getD (msg.length - 1) 0).isLt
  have hhigh := ofNat_or_of_lt (k := 16) (msg.getD 0 0).toNat (y := 2 ^ 8 * (msg.getD (msg.length / 2) 0).toNat) (by omega)
  have hlow := ofNat_or_of_lt (k := 8) (2 ^ 8 * (msg.getD 0 0).toNat + (msg.getD (msg.length / 2) 0).toNat) h2
  rw [Nat.mul_add, ← Nat.mul_assoc] at hlow
  simp only [shortPair, memRead_one, ofNat_shiftLeft, Nat.shiftRight_eq_div_pow, pow_one, hhigh]
  exact Prod.ext hlow rfl

/-- The distance of the two reads of a medium message's half (R90). -/
theorem mediumOffset {r : Nat} (h4 : 4 ≤ r) (h16 : r ≤ 16) :
    (r >>> 3) <<< 2 = if r < 8 then 0 else if r < 16 then 4 else 8 := by
  rw [Nat.shiftLeft_eq, Nat.shiftRight_eq_div_pow]
  split
  · omega
  · split <;> omega

/-- Two reads of four bytes, the first in the high half (R90). -/
theorem memRead_four_pair (s : List Byte) (o o' : Nat) :
    (memRead s o 4 <<< 32) ||| memRead s o' 4 = BitVec.ofNat 64 (4294967296 * fourBytes s o + fourBytes s o') := by
  rw [memRead_four, memRead_four, ofNat_shiftLeft]
  exact ofNat_or_of_lt (k := 32) _ (fourBytes_lt s o')

/-- The pair of a medium message, whose halves are read at a distance `k` (R90). -/
theorem mediumPair_eq {msg : List Byte} {k : Nat} (hk : (msg.length >>> 3) <<< 2 = k) :
    mediumPair msg = (BitVec.ofNat 64 (4294967296 * fourBytes msg 0 + fourBytes msg k),
      BitVec.ofNat 64 (4294967296 * fourBytes msg (msg.length - 4) + fourBytes msg (msg.length - 4 - k))) := by
  simp only [mediumPair, hk, memRead_four_pair]

/-- Settles O12: nothing is forwarded, absorbed or folded, and the pair of each path is read byte by byte. -/
theorem finalOfASmallMessage : Obligations.FinalOfASmallMessage := by
  intro data s hfin htail htotal msg at' word32 answer
  have hfinal (h : msg.length ≤ 16) := (exec_eq_runCommand (.final data) s).trans
    (finalCommand_small specConfig hfin htail htotal (msg := msg) rfl h)
  refine ⟨fun hempty => ?_, fun hpos hshort => ?_, fun hlong hmedium => ?_⟩
  · rw [hfinal (by omega), smallPair_empty hempty]
    rfl
  · rw [hfinal (by omega), smallPair_short hpos (by omega), shortPair_eq]
    rfl
  · intro k
    have hk : (msg.length >>> 3) <<< 2 = k := mediumOffset hlong hmedium
    rw [hfinal hmedium, smallPair_medium hlong, mediumPair_eq hk]
    rfl

end Sys2Proof.Machine
end
